-- ==== Sys2Proof/Word.lean ====
section
/-! DEFINITION. The widths of the block's quantities (00_scope.md R13, R20): bytes, register words and
scaled results are what the spec treats as bits, numbered from 0 at the least significant bit. -/

namespace Sys2Proof

/-- A bus byte, an opcode byte, an `info` byte: 8 bits. -/
abbrev Byte := BitVec 8

/-- A register word, a configuration word, a raw sample: 16 bits. -/
abbrev Word := BitVec 16

/-- A 3-bit gain code, `GAIN` (R103). -/
abbrev GainCode := BitVec 3

/-- The `s32` of R306 and R453: a 32-bit two's-complement value. -/
abbrev Scaled := BitVec 32

end Sys2Proof
end

