-- ==== Sys2Proof/Config.lean ====
section
/-! DEFINITION. What an implementation of the block fixes (00_scope.md section 3): the parameters
`P_FIELD_POLICY`, `P_FSR_mV` and `P_DEV_ADDR7`. -/

namespace Sys2Proof

/-- `P_FIELD_POLICY` (R11): how CFG_BUILD treats a sub-field value wider than its sub-field. -/
inductive FieldPolicy
  /-- Shift and OR without masking, the reference behaviour (R426). -/
  | orUnmasked
  /-- Cut each value to its sub-field's width (R427). -/
  | mask
  /-- Answer `E_FIELD_RANGE` (R428). -/
  | reject
  deriving DecidableEq, Repr

/-- The spec's default for `P_FIELD_POLICY` (R11: "The spec's default is `OR_UNMASKED`"). -/
def Config.defaultPolicy : FieldPolicy := .orUnmasked

/-- The entries of `P_FSR_mV` the source leaves open (R10, D14, I2): a free value for every gain code,
used for every code but 1. The type keeps R455's bound, each entry in `0 .. 65535`. Log 5. -/
opaque Config.openFsrMilliVolts : GainCode → BitVec 16

/-- `P_DEV_ADDR7` (R12, D28, I7): the external device's 7-bit bus address, left OPEN; a free value that
no command reads. Log 6. -/
opaque Config.devAddr7 : BitVec 7

end Sys2Proof
end

