-- ==== Sys2Proof/Syntax.lean ====
section
/-! DEFINITION. The commands of the block as syntax: the nine sub-fields, the instruction type with one
constructor per row of spec/opcode_table.json, and the command record of 30_encoding.md R302. -/

namespace Sys2Proof

/-- The nine sub-fields of the configuration word, in the declared order (R110, R111, R422). -/
inductive Field
  | status | mux | gain | mode | rate | compMode | compPol | compLat | compQue
  deriving DecidableEq, Repr

/-- The operand `f : Fin 9 -> u16` of CFG_BUILD (R14, R302): nine 16-bit values in field order. -/
structure Fields where
  status   : Word
  mux      : Word
  gain     : Word
  mode     : Word
  rate     : Word
  compMode : Word
  compPol  : Word
  compLat  : Word
  compQue  : Word
  deriving DecidableEq, Repr

/-- A command after decoding: one constructor per row of the opcode table, with the operands its
format reads (R302, R303). A RESERVED row keeps the opcode byte, which R481 reports as `info`. -/
inductive Instr
  /-- `00000000`, format N (R480). -/
  | nop
  /-- `00000001`, format W (R400). -/
  | enc16 (a : Word)
  /-- `00000010`, format BB (R405). -/
  | dec16 (b0 b1 : Byte)
  /-- `00000011`, format F9 (R425). -/
  | cfgBuild (f : Fields)
  /-- `00000100`, format W (R430). -/
  | cfgCommit (a : Word)
  /-- `00000101`, format W (R450). -/
  | scale (a : Word)
  /-- `0000011x`, match 0x06, mask 0xFE (R481). -/
  | reserved06 (op : Byte)
  /-- `00001xxx`, match 0x08, mask 0xF8 (R481). -/
  | reserved08 (op : Byte)
  /-- `0001xxxx`, match 0x10, mask 0xF0 (R481). -/
  | reserved10 (op : Byte)
  /-- `001xxxxx`, match 0x20, mask 0xE0 (R481). -/
  | reserved20 (op : Byte)
  /-- `01xxxxxx`, match 0x40, mask 0xC0 (R481). -/
  | reserved40 (op : Byte)
  /-- `1xxxxxxx`, match 0x80, mask 0x80 (R481). -/
  | reserved80 (op : Byte)
  deriving DecidableEq, Repr

/-- The four command formats of R302. -/
inductive Format
  /-- No operand. -/
  | N
  /-- One 16-bit operand `a`. -/
  | W
  /-- Two 8-bit operands `b0`, `b1`. -/
  | BB
  /-- Nine 16-bit operands `f[0] .. f[8]`. -/
  | F9
  deriving DecidableEq, Repr

/-- A field operand with all nine values 0: what stands in a record whose command has no `f`. -/
def Fields.zero : Fields := ⟨0, 0, 0, 0, 0, 0, 0, 0, 0⟩

/-- The command record `{op, a, b0, b1, f}` of R302. Operands a command's format does not read are
ignored (R308), so a record may leave them at 0. -/
structure Command where
  op : Byte
  a  : Word := 0
  b0 : Byte := 0
  b1 : Byte := 0
  f  : Fields := Fields.zero
  deriving DecidableEq, Repr

end Sys2Proof
end

