-- ==== Sys2Proof/Machine/State.lean ====
section
/-! DEFINITION. The block's state (10_state.md R100 to R112), the response record (30_encoding.md R306),
what the host can present (70_reset_and_hazards.md R710), and the reasons a step can stop. -/

namespace Sys2Proof.Machine

/-- The `status` codes of R306; their numbers are `Status.code` in Machine/Flags.lean. -/
inductive Status
  /-- Every successful command. -/
  | ok
  /-- `E_ILLEGAL_OP`: a reserved opcode (R602). -/
  | illegalOp
  /-- `E_FIELD_RANGE`: CFG_BUILD under REJECT (R603). -/
  | fieldRange
  /-- `E_NOCFG`: SCALE while `CFG_VALID = 0` (R604). -/
  | noCfg
  deriving DecidableEq, Repr

/-- The `result` of a response (R306). -/
inductive Result
  | none
  | bytes (y0 y1 : Byte)
  | word (w : Word)
  | scaled (s : Scaled)
  deriving DecidableEq, Repr

/-- A response record `{status, info, result}` (R306). -/
structure Response where
  status : Status
  info   : Byte
  result : Result
  deriving DecidableEq, Repr

/-- One thing the host presents (R710): a command as a record (R302), commands as a byte stream
(R311), or the reset event, which is no command (R700). -/
inductive HostMove
  | command (c : Command)
  | stream (bytes : List Byte)
  | reset
  deriving DecidableEq, Repr

/-- The machine. The block's own state is `cfg` and `cfgValid`, "exactly two elements" (R100); the
other fields are the model's interface to the host and the block's parameter. -/
structure State where
  /-- `CFG` (R101). It "holds no value" until a word is committed (R100, R104): `none`. Log 3. -/
  cfg : Option Word
  /-- `CFG_VALID` (R102). -/
  cfgValid : Bool
  /-- `P_FIELD_POLICY` (R11), fixed: no command and no reset writes it (R702). Log 4. -/
  policy : FieldPolicy
  /-- What the host has presented and the block has not yet taken, in order. Log 1. -/
  input : List HostMove
  /-- The responses returned to the host, oldest first. No meaning reads them (R108). Log 2. -/
  responses : List Response
  deriving DecidableEq, Repr

/-- Why the machine stops with a fault. The block's own errors are responses, not faults (R600). -/
inductive Fault
  /-- Raised by SCALE when `CFG_VALID = 1` and `CFG` holds no value: I3, "any rule that tried to read
  it would `fault`". No run reaches such a state. Safe. Log 3. -/
  | cfgHoldsNoValue
  deriving DecidableEq, Repr

/-- Why a step is refused. -/
inductive Refusal
  /-- Raised by an arm of exec whose instruction has no meaning yet; none is left. Safe. -/
  | notModelled (mnemonic : String)
  /-- Raised by step when a byte stream ends inside the operand bytes of the command `op`: "the decoder
  refuses it, and the block never sees it" (R311, I9). Safe. Log 8. -/
  | truncatedCommand (op : Byte)
  deriving DecidableEq, Repr

/-- The block right after reset (R112, R700, R702): `CFG_VALID = 0`, `CFG` without a value, the
parameter at the spec's default (R11), nothing presented and nothing returned. Logs 1 to 4. -/
def State.reset : State where
  cfg := none
  cfgValid := false
  policy := Config.defaultPolicy
  input := []
  responses := []

end Sys2Proof.Machine
end

