-- ==== Sys2Proof/Machine/Flags.lean ====
section
/-! DEFINITION. The block has no condition flags and no sticky status (R108). What stands in their place
is each response's status code (30_encoding.md R306). -/

namespace Sys2Proof.Machine

/-- The `status : u8` of a response (R306). -/
def Status.code : Status → Byte
  | .ok => 0
  | .illegalOp => 1
  | .fieldRange => 2
  | .noCfg => 3

/-- Whether a status is an error (R306: every code but `OK`). -/
def Status.isError : Status → Bool
  | .ok => false
  | .illegalOp => true
  | .fieldRange => true
  | .noCfg => true

end Sys2Proof.Machine
end

