-- ==== Sys2Proof/WellFormed.lean ====
section
/-! DEFINITION. Which terms of `Instr` are commands: every operand type has exactly its width (R305), so
the only check is that a RESERVED row's opcode byte lies in that row of the opcode table. -/

namespace Sys2Proof

/-- Well-formedness of an instruction: a RESERVED row holds an opcode byte of its own row
(opcode_table.json, `match` and `mask`); every other term is well formed (R305, D31). -/
def Instr.wellFormed : Instr → Bool
  | .nop => true
  | .enc16 _ => true
  | .dec16 _ _ => true
  | .cfgBuild _ => true
  | .cfgCommit _ => true
  | .scale _ => true
  | .reserved06 op => op &&& 0xFE#8 == 0x06#8
  | .reserved08 op => op &&& 0xF8#8 == 0x08#8
  | .reserved10 op => op &&& 0xF0#8 == 0x10#8
  | .reserved20 op => op &&& 0xE0#8 == 0x20#8
  | .reserved40 op => op &&& 0xC0#8 == 0x40#8
  | .reserved80 op => op &&& 0x80#8 == 0x80#8

end Sys2Proof
end

