-- ==== Sys2Proof/Decode.lean ====
section
/-! DEFINITION. The command byte stream (30_encoding.md R303, R305, R309, R311): byte order, the opcode
dispatch, a decoder that is total on any bytes, and the encoder. -/

namespace Sys2Proof

/-! ### Byte order of a 16-bit operand (R200, R311) -/

/-- `{hi, lo}`, that is `(hi << 8) | lo` (R21): the 16-bit operand of two stream bytes, the first byte
high (R305). -/
def joinBytes (hi lo : Byte) : Word := (hi.setWidth 16 <<< 8) ||| lo.setWidth 16

/-- `v[15:8]`, the byte that comes first. -/
def highByte (v : Word) : Byte := v.extractLsb' 8 8

/-- `v[7:0]`, the byte that comes second. -/
def lowByte (v : Word) : Byte := v.extractLsb' 0 8

/-! ### Dispatch on the opcode byte (R303, R309) -/

/-- The format the opcode byte fixes (R303, R311); a reserved opcode has format N. -/
def formatOf (op : Byte) : Format :=
  if op = 0x01#8 then .W
  else if op = 0x02#8 then .BB
  else if op = 0x03#8 then .F9
  else if op = 0x04#8 then .W
  else if op = 0x05#8 then .W
  else .N

/-- Length in bytes of a command of a format in the stream (R311). -/
def Format.length : Format → Nat
  | .N => 1
  | .W => 3
  | .BB => 3
  | .F9 => 19

/-- The command a record stands for: all 8 bits of `op` select it, and only the operands of its
format are read (R303, R308, R309). Total: the last row holds every opcode the others leave. -/
def Command.toInstr (c : Command) : Instr :=
  if c.op = 0x00#8 then .nop
  else if c.op = 0x01#8 then .enc16 c.a
  else if c.op = 0x02#8 then .dec16 c.b0 c.b1
  else if c.op = 0x03#8 then .cfgBuild c.f
  else if c.op = 0x04#8 then .cfgCommit c.a
  else if c.op = 0x05#8 then .scale c.a
  else if c.op &&& 0xFE#8 = 0x06#8 then .reserved06 c.op
  else if c.op &&& 0xF8#8 = 0x08#8 then .reserved08 c.op
  else if c.op &&& 0xF0#8 = 0x10#8 then .reserved10 c.op
  else if c.op &&& 0xE0#8 = 0x20#8 then .reserved20 c.op
  else if c.op &&& 0xC0#8 = 0x40#8 then .reserved40 c.op
  else .reserved80 c.op

/-! ### The stream decoder (R311) -/

/-- Why the stream decoder reads no command. -/
inductive DecodeRefusal
  /-- No byte: there is no opcode to read. -/
  | emptyStream
  /-- The stream ends inside the operand bytes of the command `op` (R311, I9). -/
  | truncated (op : Byte)
  deriving DecidableEq, Repr

/-- One big-endian 16-bit operand and the bytes after it. -/
def takeWord : List Byte → Option (Word × List Byte)
  | hi :: lo :: rest => some (joinBytes hi lo, rest)
  | _ => none

/-- The two 8-bit operands of format BB and the bytes after them. -/
def takePair : List Byte → Option ((Byte × Byte) × List Byte)
  | b0 :: b1 :: rest => some ((b0, b1), rest)
  | _ => none

/-- The nine 16-bit operands of format F9, in field order, and the bytes after them (R311). -/
def takeFields (bs : List Byte) : Option (Fields × List Byte) := do
  let (status, bs) ← takeWord bs
  let (mux, bs) ← takeWord bs
  let (gain, bs) ← takeWord bs
  let (mode, bs) ← takeWord bs
  let (rate, bs) ← takeWord bs
  let (compMode, bs) ← takeWord bs
  let (compPol, bs) ← takeWord bs
  let (compLat, bs) ← takeWord bs
  let (compQue, bs) ← takeWord bs
  return (⟨status, mux, gain, mode, rate, compMode, compPol, compLat, compQue⟩, bs)

/-- The record of the first command of a stream and the bytes after it: one opcode byte, then the
operand bytes of its format (R311). An operand that has no bytes does not exist (R308); the record
leaves it at 0. -/
def decodeCommand : List Byte → Except DecodeRefusal (Command × List Byte)
  | [] => .error .emptyStream
  | op :: bs =>
    match formatOf op with
    | .N => .ok (Command.mk op 0 0 0 Fields.zero, bs)
    | .W =>
      match takeWord bs with
      | some (a, rest) => .ok (Command.mk op a 0 0 Fields.zero, rest)
      | none => .error (.truncated op)
    | .BB =>
      match takePair bs with
      | some ((b0, b1), rest) => .ok (Command.mk op 0 b0 b1 Fields.zero, rest)
      | none => .error (.truncated op)
    | .F9 =>
      match takeFields bs with
      | some (f, rest) => .ok (Command.mk op 0 0 0 f, rest)
      | none => .error (.truncated op)

/-- The stream decoder, total on any bytes: the first command and the bytes after it, or a refusal by
name (R311). -/
def decode (bs : List Byte) : Except DecodeRefusal (Instr × List Byte) :=
  match decodeCommand bs with
  | .ok (c, rest) => .ok (c.toInstr, rest)
  | .error e => .error e

/-! ### The encoder (R311) -/

/-- The two stream bytes of a 16-bit operand, most significant first. -/
def wordBytes (v : Word) : List Byte := [highByte v, lowByte v]

/-- Bytes 1 .. 18 of a CFG_BUILD: byte `1+2i` is `f[i][15:8]`, byte `2+2i` is `f[i][7:0]`. -/
def Fields.bytes (f : Fields) : List Byte :=
  wordBytes f.status ++ (wordBytes f.mux ++ (wordBytes f.gain ++ (wordBytes f.mode ++
    (wordBytes f.rate ++ (wordBytes f.compMode ++ (wordBytes f.compPol ++
      (wordBytes f.compLat ++ wordBytes f.compQue)))))))

/-- The command byte stream of one well-formed instruction (R303, R311). -/
def encode : Instr → List Byte
  | .nop => [0x00#8]
  | .enc16 a => 0x01#8 :: wordBytes a
  | .dec16 b0 b1 => [0x02#8, b0, b1]
  | .cfgBuild f => 0x03#8 :: f.bytes
  | .cfgCommit a => 0x04#8 :: wordBytes a
  | .scale a => 0x05#8 :: wordBytes a
  | .reserved06 op => [op]
  | .reserved08 op => [op]
  | .reserved10 op => [op]
  | .reserved20 op => [op]
  | .reserved40 op => [op]
  | .reserved80 op => [op]

/-- The stream of a sequence of commands, in order. -/
def encodeAll (is : List Instr) : List Byte := is.flatMap encode

/-! ### Table words -/

/-- The first `n` bytes of the number `w`, its least significant byte first. -/
def bytesOfNat : Nat → Nat → List Byte
  | 0, _ => []
  | n + 1, w => BitVec.ofNat 8 w :: bytesOfNat n (w / 256)

/-- The stream bytes of an instruction whose bits are `w`, numbered as spec/opcode_table.json numbers
them (bit 0 the least significant bit of the first byte), every bit from `nbits` on 0, cut to the
length its opcode byte fixes (R311). -/
def tableBytes (nbits w : Nat) : List Byte :=
  let bs := bytesOfNat 19 (w % 2 ^ nbits)
  bs.take (formatOf (bs.headD 0)).length

/-- The instruction the decoder reads from an instruction whose table bits are `w`. -/
def decodeTableWord (nbits w : Nat) : Option Instr :=
  match decode (tableBytes nbits w) with
  | .ok (i, _) => some i
  | .error _ => none

end Sys2Proof
end

