-- ==== Sys2Proof/Machine/Operands.lean ====
section
/-! DEFINITION. What the commands compute from their operands: the codec (40_register_codec.md), the
layout and assembly of the configuration word (10_state.md R110, 41_config_assembler.md) and the
scaler's arithmetic (42_sample_scaling.md). Nothing here reads or writes State. -/

namespace Sys2Proof

/-! ### Register Codec (R400, R405) -/

/-- `encode16` (R400): the bytes `(bytes[0], bytes[1])`, most significant first. -/
def encode16 (v : Word) : Byte × Byte := (highByte v, lowByte v)

/-- `decode16` (R405): `(zext_16(b0) << 8) | zext_16(b1)`. -/
def decode16 (b0 b1 : Byte) : Word := (b0.setWidth 16 <<< 8) ||| b1.setWidth 16

/-! ### The configuration word's layout (R110, R422) -/

/-- The nine sub-fields in field order. -/
def Field.all : List Field :=
  [.status, .mux, .gain, .mode, .rate, .compMode, .compPol, .compLat, .compQue]

/-- The index `i` of a sub-field in field order. -/
def Field.index : Field → Nat
  | .status => 0
  | .mux => 1
  | .gain => 2
  | .mode => 3
  | .rate => 4
  | .compMode => 5
  | .compPol => 6
  | .compLat => 7
  | .compQue => 8

/-- The width `w_i`. -/
def Field.width : Field → Nat
  | .status => 1
  | .mux => 3
  | .gain => 3
  | .mode => 1
  | .rate => 3
  | .compMode => 1
  | .compPol => 1
  | .compLat => 1
  | .compQue => 2

/-- The shift `p_i`. -/
def Field.shift : Field → Nat
  | .status => 15
  | .mux => 12
  | .gain => 9
  | .mode => 8
  | .rate => 5
  | .compMode => 4
  | .compPol => 3
  | .compLat => 2
  | .compQue => 0

/-- The in-word mask `M_i = (2^w_i - 1) << p_i`. -/
def Field.maskBits (k : Field) : Word := BitVec.ofNat 16 ((2 ^ k.width - 1) <<< k.shift)

/-- The operand value `f[i]` of a sub-field (R302). -/
def Fields.get (f : Fields) : Field → Word
  | .status => f.status
  | .mux => f.mux
  | .gain => f.gain
  | .mode => f.mode
  | .rate => f.rate
  | .compMode => f.compMode
  | .compPol => f.compPol
  | .compLat => f.compLat
  | .compQue => f.compQue

/-- The operand with `f[i]` replaced by `v`. -/
def Fields.set (f : Fields) (k : Field) (v : Word) : Fields :=
  match k with
  | .status => { f with status := v }
  | .mux => { f with mux := v }
  | .gain => { f with gain := v }
  | .mode => { f with mode := v }
  | .rate => { f with rate := v }
  | .compMode => { f with compMode := v }
  | .compPol => { f with compPol := v }
  | .compLat => { f with compLat := v }
  | .compQue => { f with compQue := v }

/-- The sub-field `w[p_i + w_i - 1 : p_i]` of a configuration word, as a natural (R20, R110). -/
def fieldOf (k : Field) (w : Word) : Nat := (w.toNat >>> k.shift) % 2 ^ k.width

/-- The view `GAIN = CFG[11:9]` (R103). -/
def gainOf (w : Word) : GainCode := w.extractLsb' 9 3

/-- The reference field set (R423). -/
def Fields.reference : Fields := ⟨0, 4, 1, 0, 4, 0, 0, 0, 2⟩

/-! ### Configuration word assembly (R424 to R428) -/

/-- `OR_{i=0..8} g(i)` on the naturals (R21). -/
def orFields (g : Field → Nat) : Nat := Field.all.foldl (fun acc k => acc ||| g k) 0

/-- `OR_{i=0..8} (f[i] << p_i)`, exact (R425). -/
def Fields.shifted (f : Fields) : Nat := orFields fun k => (f.get k).toNat <<< k.shift

/-- `OR_{i=0..8} ((f[i] mod 2^w_i) << p_i)`, exact (R427). -/
def Fields.masked (f : Fields) : Nat :=
  orFields fun k => ((f.get k).toNat % 2 ^ k.width) <<< k.shift

/-- The word of OR_UNMASKED: the exact OR taken `mod 2^16` (R426). -/
def orWord (f : Fields) : Word := BitVec.ofNat 16 f.shifted

/-- The word of MASK (R427). -/
def maskWord (f : Fields) : Word := BitVec.ofNat 16 f.masked

/-- `f[i] >= 2^w_i`: the value does not fit its sub-field (R428). -/
def Fields.oversized (f : Fields) (k : Field) : Bool := decide (2 ^ k.width ≤ (f.get k).toNat)

/-- The lowest-indexed oversized sub-field (R428, R606). -/
def Fields.firstOversized (f : Fields) : Option Field := Field.all.find? f.oversized

/-- The source's own packing, `acc <- (acc << w_i) | f_i`, most significant field first (R424), on the
naturals: nothing is cut until the end. -/
def Fields.packed (f : Fields) : Nat :=
  Field.all.foldl (fun acc k => (acc <<< k.width) ||| (f.get k).toNat) 0

/-- The same packing with the accumulator cut to 16 bits at each step (R424). -/
def Fields.packedCut (f : Fields) : Word :=
  Field.all.foldl (fun acc k => (acc <<< k.width) ||| f.get k) 0

/-! ### Sample Scaler (R450 to R453) -/

/-- `signed(v)`: the two's-complement value of a 16-bit pattern (R21, R451, D12). -/
def signed (v : Word) : Int := if v.toNat < 2 ^ 15 then (v.toNat : Int) else (v.toNat : Int) - 2 ^ 16

/-- `P_FSR_mV(g)` in millivolts (R10): 4096 for code 1, a free value for every other code. Its type
holds it in `0 .. 65535` (R455). Log 5. -/
def fsrMilliVolts (g : GainCode) : BitVec 16 :=
  if g = 1 then 4096 else Config.openFsrMilliVolts g

/-- `s = signed(a) * FSR`, the exact integer product (R452, R453). -/
def scaleNumerator (fsr : BitVec 16) (a : Word) : Int := signed a * (fsr.toNat : Int)

/-- `s` as a 32-bit two's-complement value (R453). -/
def scaleResult (fsr : BitVec 16) (a : Word) : Scaled := BitVec.ofInt 32 (scaleNumerator fsr a)

/-- The voltage, in volts, a scaled result means: `V = s / 32768000` (R452). An exact rational that is
never state (R23). -/
def voltageOf (s : Scaled) : Rat := (s.toInt : Rat) / 32768000

end Sys2Proof
end

