-- ==== Sys2Proof/Machine/Ops.lean ====
section
/-! DEFINITION. The shared operations over State: ending a command with a response (R22, R306), the one
operation that raises an error (60_exceptions.md R600, R601), latching `CFG` (R430) and the reset event
(R700). The block has no memory and no registers to read or write besides, takes no exception in the
sense of saving state or moving a program counter, and has no return from one (R600, R607). -/

namespace Sys2Proof.Machine

/-- `respond(status, result)`: return a response record to the host (R22, R306). -/
def respond (r : Response) (s : State) : State := { s with responses := s.responses ++ [r] }

/-- End a command with status `OK`, `info` 0 and a result (R306). -/
def succeed (result : Result) (s : State) : Host.Outcome State Fault Refusal :=
  .next (respond ⟨.ok, 0, result⟩ s)

/-- `raise E(info)`: end a command with an error status, `result = none` and no other effect
(R307, R600, R601). The machine goes on: the next command runs on the unchanged state. -/
def raise (e : Status) (info : Byte) (s : State) : Host.Outcome State Fault Refusal :=
  .next (respond ⟨e, info, .none⟩ s)

/-- `CFG <- w` and `CFG_VALID <- 1`, both together (R430). -/
def latchCfg (w : Word) (s : State) : State := { s with cfg := some w, cfgValid := true }

/-- The reset event: `CFG_VALID <- 0`, `CFG` left without a value; parameters unchanged (R112, R700,
R702). It returns nothing (R710) and touches nothing the host still presents. Log 10. -/
def resetBlock (s : State) : State := { s with cfg := none, cfgValid := false }

/-- The scaled result of a committed word for a raw sample (R450): the word's gain field selects the
full-scale range. -/
def scaledBy (w : Word) (a : Word) : Scaled := scaleResult (fsrMilliVolts (gainOf w)) a

end Sys2Proof.Machine
end

