-- ==== Sys2Proof/Machine/Codec.lean ====
section
/-! DEFINITION. Register Codec commands (40_register_codec.md). -/

namespace Sys2Proof.Machine

/-- ENC16 (R400): the two bytes of `a`, most significant first. Reads and writes no state (R412). -/
def execEnc16 (a : Word) (s : State) : Host.Outcome State Fault Refusal :=
  succeed (.bytes (encode16 a).1 (encode16 a).2) s

/-- DEC16 (R405): the unsigned word of two bytes. Reads and writes no state (R412). -/
def execDec16 (b0 b1 : Byte) (s : State) : Host.Outcome State Fault Refusal :=
  succeed (.word (decode16 b0 b1)) s

end Sys2Proof.Machine
end

