-- ==== Sys2Proof/Machine/ConfigWord.lean ====
section
/-! DEFINITION. Configuration Word Assembler commands (41_config_assembler.md). -/

namespace Sys2Proof.Machine

/-- CFG_BUILD (R425): the word of nine sub-field values, under the policy in force (R426 to R428).
Under REJECT an oversized value is answered with `E_FIELD_RANGE` and the lowest such index. -/
def execCfgBuild (f : Fields) (s : State) : Host.Outcome State Fault Refusal :=
  match s.policy with
  | .orUnmasked => succeed (.word (orWord f)) s
  | .mask => succeed (.word (maskWord f)) s
  | .reject =>
    match f.firstOversized with
    | some k => raise .fieldRange (BitVec.ofNat 8 k.index) s
    | none => succeed (.word (orWord f)) s

/-- CFG_COMMIT (R430): latch the word, mark it valid, answer `OK` with no result. Every 16-bit word is
accepted. -/
def execCfgCommit (a : Word) (s : State) : Host.Outcome State Fault Refusal :=
  succeed .none (latchCfg a s)

end Sys2Proof.Machine
end

