-- ==== Sys2Proof/Machine/Control.lean ====
section
/-! DEFINITION. NOP and the reserved opcodes (43_control.md). -/

namespace Sys2Proof.Machine

/-- NOP (R480): succeeds and does nothing. -/
def execNop (s : State) : Host.Outcome State Fault Refusal := succeed .none s

/-- A reserved opcode (R481, R602): `E_ILLEGAL_OP` with `info = op`, and no state change. -/
def illegalOpcode (op : Byte) (s : State) : Host.Outcome State Fault Refusal := raise .illegalOp op s

/-- RESERVED, row `0000011x` (R481). -/
def execReserved06 (op : Byte) (s : State) : Host.Outcome State Fault Refusal := illegalOpcode op s

/-- RESERVED, row `00001xxx` (R481). -/
def execReserved08 (op : Byte) (s : State) : Host.Outcome State Fault Refusal := illegalOpcode op s

/-- RESERVED, row `0001xxxx` (R481). -/
def execReserved10 (op : Byte) (s : State) : Host.Outcome State Fault Refusal := illegalOpcode op s

/-- RESERVED, row `001xxxxx` (R481). -/
def execReserved20 (op : Byte) (s : State) : Host.Outcome State Fault Refusal := illegalOpcode op s

/-- RESERVED, row `01xxxxxx` (R481). -/
def execReserved40 (op : Byte) (s : State) : Host.Outcome State Fault Refusal := illegalOpcode op s

/-- RESERVED, row `1xxxxxxx` (R481). -/
def execReserved80 (op : Byte) (s : State) : Host.Outcome State Fault Refusal := illegalOpcode op s

end Sys2Proof.Machine
end

