-- ==== Sys2Proof/Machine/Scaler.lean ====
section
/-! DEFINITION. The Sample Scaler command (42_sample_scaling.md). -/

namespace Sys2Proof.Machine

/-- SCALE (R450): `E_NOCFG` while `CFG_VALID = 0` (R604); otherwise the voltage numerator of `a` under
the committed word's gain. The fault stands for a `CFG` that holds no value although `CFG_VALID = 1`
(I3), a state no run reaches. -/
def execScale (a : Word) (s : State) : Host.Outcome State Fault Refusal :=
  if s.cfgValid then
    match s.cfg with
    | some w => succeed (.scaled (scaledBy w a)) s
    | none => .fault .cfgHoldsNoValue
  else raise .noCfg 0 s

end Sys2Proof.Machine
end

