-- ==== Sys2Proof/Machine/Dispatch.lean ====
section
/-! DEFINITION. The meaning of each command, one arm per row of the opcode table (30_encoding.md R309). -/

namespace Sys2Proof.Machine

def exec (i : Instr) (s : State) : Host.Outcome State Fault Refusal :=
  match i with
  | .nop => Sys2Proof.Machine.execNop s
  | .enc16 a => Sys2Proof.Machine.execEnc16 a s
  | .dec16 b0 b1 => Sys2Proof.Machine.execDec16 b0 b1 s
  | .cfgBuild f => Sys2Proof.Machine.execCfgBuild f s
  | .cfgCommit a => Sys2Proof.Machine.execCfgCommit a s
  | .scale a => Sys2Proof.Machine.execScale a s
  | .reserved06 op => Sys2Proof.Machine.execReserved06 op s
  | .reserved08 op => Sys2Proof.Machine.execReserved08 op s
  | .reserved10 op => Sys2Proof.Machine.execReserved10 op s
  | .reserved20 op => Sys2Proof.Machine.execReserved20 op s
  | .reserved40 op => Sys2Proof.Machine.execReserved40 op s
  | .reserved80 op => Sys2Proof.Machine.execReserved80 op s

end Sys2Proof.Machine
end

