-- ==== Sys2Proof/Machine/Fetch.lean ====
section
/-! DEFINITION. Taking the next thing the host presents (R205, R300, R301, R311, R700): the block has no
program counter and fetches nothing from memory (R105, R208). -/

namespace Sys2Proof.Machine

/-- What stands at the head of the host's moves. -/
inductive Presented
  /-- Nothing is presented. -/
  | idle
  /-- The reset event, and the moves after it. -/
  | resetEvent (rest : List HostMove)
  /-- One command, and the moves after it. -/
  | command (i : Instr) (rest : List HostMove)
  /-- A stream that ends inside the command `op`. -/
  | truncated (op : Byte)
  deriving DecidableEq, Repr

/-- The moves that remain when `bytes` are left of the stream at their head: a stream that is used up
is gone. -/
def remaining (bytes : List Byte) (moves : List HostMove) : List HostMove :=
  match bytes with
  | [] => moves
  | b :: bs => .stream (b :: bs) :: moves

/-- The next command or event the host presents. A stream with no bytes carries no command and is
passed over. Log 1. -/
def takeMove : List HostMove → Presented
  | [] => .idle
  | .reset :: rest => .resetEvent rest
  | .command c :: rest => .command c.toInstr rest
  | .stream bytes :: rest =>
    match decode bytes with
    | .ok (i, left) => .command i (remaining left rest)
    | .error .emptyStream => takeMove rest
    | .error (.truncated op) => .truncated op

/-- The machine with a list of moves still to be taken. -/
def setInput (moves : List HostMove) (s : State) : State := { s with input := moves }

/-- The host presents the instruction whose opcode-table bits are `w` before all else it presents
(R311): its bytes as a stream of their own. Log 9. -/
def presentWord (nbits w : Nat) (s : State) : State :=
  setInput (.stream (tableBytes nbits w) :: s.input) s

end Sys2Proof.Machine
end

