-- ==== Sys2Proof/Machine/Step.lean ====
section
/-! DEFINITION. One step of the block (R300, R301, R309): one command, from its presentation to its
response; or the reset event, between commands (R700, R701); or, with nothing presented, no change. -/

namespace Sys2Proof.Machine

/-- One step: take what the host presents next and run it. -/
def step (s : State) : Host.Outcome State Fault Refusal :=
  match takeMove s.input with
  | .idle => .next s
  | .resetEvent rest => .next (resetBlock (setInput rest s))
  | .command i rest => exec i (setInput rest s)
  | .truncated op => .refused (.truncatedCommand op)

/-- The state in which the very next step runs the instruction whose opcode-table bits are `w`: its
stream bytes are what the host presents first. Log 9. -/
def State.withFetchWord (s : State) (nbits w : Nat) : State := presentWord nbits w s

end Sys2Proof.Machine
end

