-- ==== Sys2Proof/Machine/Assembler.lean ====
section
/-! DEFINITION. The assembly syntax for command sequences (30_encoding.md R310), from text, a list of
characters, to the command byte stream of R311. It belongs to the host: no meaning refers to it. White
space, letter case and blank lines are the model's choice, log 12. -/

namespace Sys2Proof.Assembler

/-- Why the assembler refuses a line. -/
inductive Refused
  /-- The first word is no mnemonic of R310. -/
  | unknownMnemonic
  /-- The number of operands is not the mnemonic's. -/
  | operandCount
  /-- An operand is no number, decimal or `0x` hexadecimal. -/
  | notANumber
  /-- A number does not fit its operand field (R310). -/
  | operandTooWide
  /-- A named operand is not the one its place in field order asks for. -/
  | wrongName
  /-- `.byte` with an opcode whose format is not N. Log 12. -/
  | notFormatN
  deriving DecidableEq, Repr

/-- White space inside a line. -/
def isSpace (c : Char) : Bool := c == ' ' || c == '\t' || c == '\r'

/-- The text without white space at its ends. -/
def trim (cs : List Char) : List Char :=
  ((cs.dropWhile isSpace).reverse.dropWhile isSpace).reverse

/-- The pieces of a text between separators: one more than there are separators. -/
def splitOn (sep : Char) : List Char → List (List Char)
  | [] => [[]]
  | c :: cs =>
    match splitOn sep cs with
    | [] => [[c]]
    | piece :: more => if c = sep then [] :: piece :: more else (c :: piece) :: more

/-- The value of a decimal digit. -/
def decimalDigit (c : Char) : Option Nat :=
  if 48 ≤ c.toNat ∧ c.toNat ≤ 57 then some (c.toNat - 48) else none

/-- The value of a hexadecimal digit, of either letter case. -/
def hexDigit (c : Char) : Option Nat :=
  if 48 ≤ c.toNat ∧ c.toNat ≤ 57 then some (c.toNat - 48)
  else if 65 ≤ c.toNat ∧ c.toNat ≤ 70 then some (c.toNat - 55)
  else if 97 ≤ c.toNat ∧ c.toNat ≤ 102 then some (c.toNat - 87)
  else none

/-- Digits in a base, most significant first, onto `acc`. -/
def digits (base : Nat) (digit : Char → Option Nat) : List Char → Nat → Option Nat
  | [], acc => some acc
  | c :: cs, acc =>
    match digit c with
    | some d => digits base digit cs (acc * base + d)
    | none => none

/-- A number, decimal (`17026`) or hexadecimal with `0x` (`0x4282`) (R310). -/
def number : List Char → Option Nat
  | [] => none
  | '0' :: 'x' :: d :: ds => digits 16 hexDigit (d :: ds) 0
  | c :: cs => digits 10 decimalDigit (c :: cs) 0

/-- An operand of `w` bits: "The assembler refuses one that does not" fit (R310). -/
def operand (w : Nat) (text : List Char) : Except Refused (BitVec w) :=
  match number (trim text) with
  | none => .error .notANumber
  | some n => if n < 2 ^ w then .ok (BitVec.ofNat w n) else .error .operandTooWide

/-- The spec's short spelling of a sub-field (R111, R310). -/
def fieldName : Field → List Char
  | .status => ['s', 't', 'a', 't', 'u', 's']
  | .mux => ['m', 'u', 'x']
  | .gain => ['g', 'a', 'i', 'n']
  | .mode => ['m', 'o', 'd', 'e']
  | .rate => ['r', 'a', 't', 'e']
  | .compMode => ['c', 'o', 'm', 'p', '_', 'm', 'o', 'd', 'e']
  | .compPol => ['c', 'o', 'm', 'p', '_', 'p', 'o', 'l']
  | .compLat => ['c', 'o', 'm', 'p', '_', 'l', 'a', 't']
  | .compQue => ['c', 'o', 'm', 'p', '_', 'q', 'u', 'e']

/-- One CFG_BUILD operand. With `named`, it is `name=value` under the sub-field's own name; without, the
value alone. A value that fits 16 bits but not its sub-field is accepted (R310). -/
def fieldOperand (named : Bool) (k : Field) (text : List Char) : Except Refused Word :=
  if named then
    match splitOn '=' text with
    | [name, value] => if trim name = fieldName k then operand 16 value else .error .wrongName
    | _ => .error .wrongName
  else operand 16 text

/-- The operands of CFG_BUILD: nine values, or nine `name=value` in field order (R310). -/
def fieldOperands : List (List Char) → Except Refused Fields
  | [t0, t1, t2, t3, t4, t5, t6, t7, t8] => do
    let named := t0.contains '='
    let status ← fieldOperand named .status t0
    let mux ← fieldOperand named .mux t1
    let gain ← fieldOperand named .gain t2
    let mode ← fieldOperand named .mode t3
    let rate ← fieldOperand named .rate t4
    let compMode ← fieldOperand named .compMode t5
    let compPol ← fieldOperand named .compPol t6
    let compLat ← fieldOperand named .compLat t7
    let compQue ← fieldOperand named .compQue t8
    return ⟨status, mux, gain, mode, rate, compMode, compPol, compLat, compQue⟩
  | _ => .error .operandCount

/-- The single 16-bit operand of format W. -/
def wordOperand : List (List Char) → Except Refused Word
  | [t] => operand 16 t
  | _ => .error .operandCount

/-- The two 8-bit operands of format BB. -/
def pairOperands : List (List Char) → Except Refused (Byte × Byte)
  | [t0, t1] => do
    let b0 ← operand 8 t0
    let b1 ← operand 8 t1
    return (b0, b1)
  | _ => .error .operandCount

/-- The operand of `.byte`: a raw opcode byte of format N (R310). Log 12. -/
def rawOpcode : List (List Char) → Except Refused Byte
  | [t] => do
    let op ← operand 8 t
    if formatOf op = .N then return op else throw .notFormatN
  | _ => .error .operandCount

/-- The operand texts of a line: none where nothing follows the mnemonic, else the pieces between
commas. -/
def operandTexts (cs : List Char) : List (List Char) :=
  match trim cs with
  | [] => []
  | c :: more => splitOn ',' (c :: more)

/-- The stream bytes of one command, from its mnemonic and its operand texts (R310, R311). -/
def command (mnemonic : List Char) (ops : List (List Char)) : Except Refused (List Byte) :=
  if mnemonic = ['N', 'O', 'P'] then
    match ops with
    | [] => .ok (encode .nop)
    | _ :: _ => .error .operandCount
  else if mnemonic = ['E', 'N', 'C', '1', '6'] then do
    let a ← wordOperand ops
    return encode (.enc16 a)
  else if mnemonic = ['D', 'E', 'C', '1', '6'] then do
    let (b0, b1) ← pairOperands ops
    return encode (.dec16 b0 b1)
  else if mnemonic = ['C', 'F', 'G', '_', 'B', 'U', 'I', 'L', 'D'] then do
    let f ← fieldOperands ops
    return encode (.cfgBuild f)
  else if mnemonic = ['C', 'F', 'G', '_', 'C', 'O', 'M', 'M', 'I', 'T'] then do
    let a ← wordOperand ops
    return encode (.cfgCommit a)
  else if mnemonic = ['S', 'C', 'A', 'L', 'E'] then do
    let a ← wordOperand ops
    return encode (.scale a)
  else if mnemonic = ['.', 'b', 'y', 't', 'e'] then do
    let op ← rawOpcode ops
    return [op]
  else .error .unknownMnemonic

/-- The stream bytes of one line: at most one command, with `;` starting a comment (R310). A line with
no command gives no bytes. Log 12. -/
def line (cs : List Char) : Except Refused (List Byte) :=
  match trim (cs.takeWhile (· ≠ ';')) with
  | [] => .ok []
  | c :: more =>
    command ((c :: more).takeWhile fun x => !isSpace x)
      (operandTexts ((c :: more).dropWhile fun x => !isSpace x))

/-- The stream bytes of a list of lines, in order; the first refused line refuses the text. -/
def lines : List (List Char) → Except Refused (List Byte)
  | [] => .ok []
  | l :: ls => do
    let bytes ← line l
    let more ← lines ls
    return bytes ++ more

/-- The command byte stream of an assembly text: "One command per line" (R310). -/
def assemble (text : List Char) : Except Refused (List Byte) := lines (splitOn '\n' text)

end Sys2Proof.Assembler
end

