-- ==== Sys2Proof/Machine/External.lean ====
section
/-! DEFINITION. External context (20_memory.md section 4, 60_exceptions.md R610): the external device's
register map and the bus transactions into which the codec's bytes go. "No command of the block performs
them": no meaning refers to this file, and it adds no state (R106). Log 6. -/

namespace Sys2Proof.External

/-- The four registers of the external device (R210). -/
inductive DeviceRegister
  | conversion | configuration | lowThreshold | highThreshold
  deriving DecidableEq, Repr

/-- Access to a device register, as the source states it (R210). -/
inductive Access
  | readOnly | readWrite | notStated
  deriving DecidableEq, Repr

/-- The 1-byte register id (R210). -/
def DeviceRegister.id : DeviceRegister → Byte
  | .conversion => 0x00
  | .configuration => 0x01
  | .lowThreshold => 0x02
  | .highThreshold => 0x03

/-- The register an id names; the source gives no other ids (R210). -/
def DeviceRegister.ofId (id : Byte) : Option DeviceRegister :=
  if id = 0x00#8 then some .conversion
  else if id = 0x01#8 then some .configuration
  else if id = 0x02#8 then some .lowThreshold
  else if id = 0x03#8 then some .highThreshold
  else none

/-- The access column of R210; for the threshold registers nothing is stated (I8). -/
def DeviceRegister.access : DeviceRegister → Access
  | .conversion => .readOnly
  | .configuration => .readWrite
  | .lowThreshold => .notStated
  | .highThreshold => .notStated

/-- Direction of a bus transfer (R211). -/
inductive Direction
  | write | read
  deriving DecidableEq, Repr

/-- The direction bit: 0 means write, 1 means read. PRESUMED: the spec takes it from general knowledge
(R211, D32, G1). Log 6. -/
def Direction.bit : Direction → BitVec 1
  | .write => 0
  | .read => 1

/-- The address byte `{P_DEV_ADDR7, dir}` (R211). -/
def addressByte (d : Direction) : Byte := Config.devAddr7 ++ d.bit

/-- One event of a bus transaction, seen from the host. The acknowledge of a received byte is left out:
its value is open (I10). -/
inductive BusStep
  | start
  | send (b : Byte)
  | receive
  | stop
  deriving DecidableEq, Repr

/-- A bus transaction of the Device Driver (R212, R213). -/
inductive Transaction
  /-- `write_register(reg, value)` (R212). -/
  | registerWrite (reg : DeviceRegister) (value : Word)
  /-- Phase (a) of `read_register(reg)`, the pointer-set phase (R213, R214). -/
  | pointerSet (reg : DeviceRegister)
  /-- Phase (b) of `read_register` (R213). -/
  | dataRead
  deriving DecidableEq, Repr

/-- The bus events of a transaction (R212, R213); the data bytes of a write are `encode16(value)` in
index order (R401). -/
def Transaction.frame : Transaction → List BusStep
  | .registerWrite reg value =>
    [.start, .send (addressByte .write), .send reg.id, .send (encode16 value).1,
      .send (encode16 value).2, .stop]
  | .pointerSet reg => [.start, .send (addressByte .write), .send reg.id, .stop]
  | .dataRead => [.start, .send (addressByte .read), .receive, .receive, .stop]

/-- The register a phase (b) read after these transactions (oldest first) returns: the one last selected
by a pointer-set; none if there was none (R214). DESIGN CHOICE: a transaction carries no outcome, so a
pointer-set that failed counts as selecting its register; the spec is silent on it. Log 16. -/
def selectedRegister (ts : List Transaction) : Option DeviceRegister :=
  ts.foldl
    (fun sel t =>
      match t with
      | .pointerSet reg => some reg
      | .registerWrite _ _ => sel
      | .dataRead => sel)
    none

/-- The raw status of a failing bus phase (R215, R610). -/
inductive BusStatus
  | nack | timeout | arbitrationLoss | other
  deriving DecidableEq, Repr

/-- The two host-level errors (R610). No command of the block raises one. -/
inductive HostError
  /-- Any transport-level error on any phase; one kind, the raw status kept (R215). -/
  | busFailure (raw : BusStatus)
  /-- A bus failure during the configuration-register write at startup. -/
  | initializationFailure (raw : BusStatus)
  deriving DecidableEq, Repr

/-- The transactions `read_register(reg)` attempts, the failed one too: phase (b) is skipped if phase (a)
fails (R215). What a failed pointer-set selects is open, log 16. -/
def readTransactions (reg : DeviceRegister) (phaseA : Except BusStatus Unit) : List Transaction :=
  match phaseA with
  | .ok _ => [.pointerSet reg, .dataRead]
  | .error _ => [.pointerSet reg]

/-- What `read_register` returns from its phases' outcomes (R213, R215): the two bytes received, in
arrival order, decoded as DEC16 decodes them (R406). -/
def readRegister (phaseA : Except BusStatus Unit) (phaseB : Except BusStatus (Byte × Byte)) :
    Except HostError Word :=
  match phaseA with
  | .error raw => .error (.busFailure raw)
  | .ok _ =>
    match phaseB with
    | .error raw => .error (.busFailure raw)
    | .ok (b0, b1) => .ok (decode16 b0 b1)

/-- What the configuration-register write at startup returns (R610). -/
def initializeDevice (write : Except BusStatus Unit) : Except HostError Unit :=
  match write with
  | .error raw => .error (.initializationFailure raw)
  | .ok _ => .ok ()

end Sys2Proof.External
end

