-- ==== Sys2Proof/Safety.lean ====
section
/-! DEFINITION. What claims call a good state, what the host can tell apart, and the host's duties
(70_reset_and_hazards.md R710, R711). No meaning refers to this file. -/

namespace Sys2Proof.Machine

/-! ### Good states -/

/-- R306: which `info` and `result` go with which status. -/
def Response.legal (r : Response) : Bool :=
  match r.status with
  | .ok => r.info == 0
  | .illegalOp => decide (6 ≤ r.info.toNat) && r.result == .none
  | .fieldRange => decide (r.info.toNat ≤ 8) && r.result == .none
  | .noCfg => r.info == 0 && r.result == .none

/-- R102: "`CFG_VALID` is 1 when `CFG` holds a committed word and 0 otherwise". -/
abbrev CfgTruthful (s : State) : Prop := s.cfgValid = s.cfg.isSome

/-- The invariant of the machine: `CFG_VALID` tells whether `CFG` holds a word (R102), and every
response returned so far is one of R306's. -/
structure Inv (s : State) : Prop where
  cfgTruthful : CfgTruthful s
  responsesLegal : ∀ r ∈ s.responses, r.legal = true

/-! ### What the host can tell apart -/

/-- Two states the host cannot tell apart: they differ at most in `CFG`, and while `CFG_VALID = 1` only
in bits of it other than the gain field (R101, R104, R458). -/
structure SameToHost (s t : State) : Prop where
  cfgValid : s.cfgValid = t.cfgValid
  gain : s.cfgValid = true → s.cfg.map gainOf = t.cfg.map gainOf
  policy : s.policy = t.policy
  input : s.input = t.input
  responses : s.responses = t.responses

/-- Two outcomes the host cannot tell apart: both next states alike, or the same stop. -/
def OutcomesAgree : Host.Outcome State Fault Refusal → Host.Outcome State Fault Refusal → Prop
  | .next s, .next t => SameToHost s t
  | .fault a, .fault b => a = b
  | .refused a, .refused b => a = b
  | .next _, .fault _ => False
  | .next _, .refused _ => False
  | .fault _, .next _ => False
  | .fault _, .refused _ => False
  | .refused _, .next _ => False
  | .refused _, .fault _ => False

/-- The commands of a list in order, each on the state the one before it left (R205). -/
def execAll : List Instr → State → Host.Outcome State Fault Refusal
  | [], s => .next s
  | i :: is, s =>
    match exec i s with
    | .next t => execAll is t
    | .fault r => .fault r
    | .refused r => .refused r

/-! ### The host's duties (R711), a monitor of what it does and is answered. Log 15 -/

/-- What the host does: a command, its bus work (whose outcome is the bus's), or a reset (R710). -/
inductive HostAction
  | command (i : Instr)
  /-- The configuration-register write of the word (R212), and whether it succeeded. -/
  | configWrite (w : Word) (succeeded : Bool)
  /-- A read of the conversion register (R213): its two bytes in arrival order, or a failure. -/
  | conversionRead (got : Option (Byte × Byte))
  | reset
  deriving DecidableEq, Repr

/-- The Sampling Loop's states the duties speak of (R711). -/
inductive HostPhase
  | initializing | running | disabled
  deriving DecidableEq, Repr

/-- What the duties depend on. -/
structure HostView where
  phase : HostPhase
  /-- The word CFG_BUILD last returned since reset (R711 (b)). -/
  built : Option Word
  /-- The configuration word whose bus write succeeded since reset (R711 (c)). -/
  written : Option Word
  /-- Whether that word has been committed. -/
  committed : Bool
  /-- The two bytes of the last read of the conversion register, none if it failed (R711 (e)). -/
  read : Option (Byte × Byte)
  /-- The word DEC16 returned for those bytes. -/
  decoded : Option Word
  /-- Whether that word has been scaled. -/
  scaled : Bool
  deriving DecidableEq, Repr

/-- R711 (a): after reset the host begins in `Initializing`. -/
def HostView.start : HostView := ⟨.initializing, none, none, false, none, none, false⟩

/-- The word a response returns, if it returns one. -/
def wordAnswered : Option Response → Option Word
  | some ⟨_, _, .word w⟩ => some w
  | some ⟨_, _, .none⟩ => none
  | some ⟨_, _, .bytes _ _⟩ => none
  | some ⟨_, _, .scaled _⟩ => none
  | none => none

/-- The view after an action the block answered with `answer`, or none where the action breaks a duty of
R711. Whether it does never depends on its own answer. -/
def HostView.after (v : HostView) (answer : Option Response) : HostAction → Option HostView
  | .reset => some .start
  -- (b), (c), (d), (f): one configuration write, in Initializing, of a word CFG_BUILD returned
  | .configWrite w succeeded =>
    if v.phase = .initializing ∧ v.built = some w then
      if succeeded then some { v with phase := .running, written := some w }
      else some { v with phase := .disabled }
    else none
  -- (d), (e): reads only in Running, once the word is committed and the last sample scaled
  | .conversionRead got =>
    if v.phase = .running ∧ v.committed = true ∧ (v.read = none ∨ v.scaled = true) then
      some { v with read := got, decoded := none, scaled := false }
    else none
  -- (b): the word to write
  | .command (.cfgBuild _) => some { v with built := (wordAnswered answer).or v.built }
  -- (c), (f): commit exactly the written word, once
  | .command (.cfgCommit a) =>
    if v.phase = .running ∧ v.committed = false ∧ v.written = some a then
      some { v with committed := true }
    else none
  -- (d), (e): DEC16 only of the two bytes a read brought
  | .command (.dec16 b0 b1) =>
    if v.phase = .running ∧ v.read = some (b0, b1) then
      some { v with decoded := wordAnswered answer }
    else none
  -- (d), (e): SCALE only of the word DEC16 returned for them
  | .command (.scale a) =>
    if v.phase = .running ∧ v.committed = true ∧ v.decoded = some a then
      some { v with scaled := true }
    else none
  | .command .nop => some v
  | .command (.enc16 _) => some v
  | .command (.reserved06 _) => some v
  | .command (.reserved08 _) => some v
  | .command (.reserved10 _) => some v
  | .command (.reserved20 _) => some v
  | .command (.reserved40 _) => some v
  | .command (.reserved80 _) => some v

/-- The view after actions and their answers, or none if some action breaks a duty. -/
def HostView.afterAll : HostView → List (HostAction × Option Response) → Option HostView
  | v, [] => some v
  | v, (a, answer) :: more =>
    match v.after answer a with
    | some v' => v'.afterAll more
    | none => none

/-- What an action does to the block: a command runs, a reset resets, bus work does nothing to it. -/
def actOn : HostAction → State → Host.Outcome State Fault Refusal
  | .command i, s => exec i s
  | .configWrite _ _, s => .next s
  | .conversionRead _, s => .next s
  | .reset, s => .next (resetBlock s)

/-- The response an action that leads from `s` to `t` brings the host, if it brings one (R710). -/
def answerFrom (s t : State) : Option Response := t.responses[s.responses.length]?

/-- The block after a run of actions. -/
def actAll : List HostAction → State → Host.Outcome State Fault Refusal
  | [], s => .next s
  | a :: as, s =>
    match actOn a s with
    | .next t => actAll as t
    | .fault r => .fault r
    | .refused r => .refused r

/-- A run of actions, each with the block's own answer; it ends at an action on which the block
stops. -/
def transcript : List HostAction → State → List (HostAction × Option Response)
  | [], _ => []
  | a :: as, s =>
    match actOn a s with
    | .next t => (a, answerFrom s t) :: transcript as t
    | .fault _ => [(a, none)]
    | .refused _ => [(a, none)]

/-- A host that keeps its duties and the block agree: once the host has committed, it is in `Running`
and the block holds exactly the word the host wrote to the device (R431); and the word it is about to
scale is that of the two bytes its last read brought (R406, R711 (e)). -/
structure InStep (v : HostView) (s : State) : Prop where
  committed : v.committed = true →
    v.phase = .running ∧ v.written.isSome = true ∧ s.cfg = v.written ∧ s.cfgValid = true
  decoded : ∀ w : Word, v.decoded = some w →
    ∃ b0 b1 : Byte, v.read = some (b0, b1) ∧ w = decode16 b0 b1

end Sys2Proof.Machine
end

