-- ==== Sys2Proof/Certificates/Slice0/Obligations.lean ====
section
/-! DEFINITION. The statements for the provers, from the numbered rules of spec/. An answer of a command
is written as the whole next state, so that each such statement is the command's frame as well. -/

open Sys2Proof Sys2Proof.Machine

/-! ### Control commands (43_control.md) -/

/-- R480: NOP, its encoding and its assembly; it does nothing and succeeds, in every state. -/
def Obligations.NopSucceedsAndDoesNothing : Prop :=
  (∀ s : State, exec .nop s = .next { s with responses := s.responses ++ [⟨.ok, 0, .none⟩] }) ∧
  formatOf 0x00 = .N ∧ encode .nop = [0x00] ∧
  Assembler.assemble ['N', 'O', 'P'] = .ok [0x00]

/-- R481 by constructor: every RESERVED row answers `E_ILLEGAL_OP` with `info = op` and changes nothing.
For an opcode byte of the row this is the rule; for an ill-formed term, whose byte is not of its row, it
is the model's choice, log 11 (no decoder and no record gives such a term). -/
def Obligations.ReservedRowsAnswerIllegalOp : Prop :=
  ∀ (op : Byte) (s : State),
    exec (.reserved06 op) s = .next { s with responses := s.responses ++ [⟨.illegalOp, op, .none⟩] } ∧
    exec (.reserved08 op) s = .next { s with responses := s.responses ++ [⟨.illegalOp, op, .none⟩] } ∧
    exec (.reserved10 op) s = .next { s with responses := s.responses ++ [⟨.illegalOp, op, .none⟩] } ∧
    exec (.reserved20 op) s = .next { s with responses := s.responses ++ [⟨.illegalOp, op, .none⟩] } ∧
    exec (.reserved40 op) s = .next { s with responses := s.responses ++ [⟨.illegalOp, op, .none⟩] } ∧
    exec (.reserved80 op) s = .next { s with responses := s.responses ++ [⟨.illegalOp, op, .none⟩] }

/-- R481, R602: every record whose opcode byte is `0x06 .. 0xFF` answers `E_ILLEGAL_OP` with
`info = op`, whatever its operand fields hold, and changes no state; in the stream it is 1 byte long,
format N; `.byte` assembles it. -/
def Obligations.ReservedOpcodesAnswerIllegalOp : Prop :=
  (∀ (c : Command) (s : State), 0x06 ≤ c.op.toNat →
    exec c.toInstr s = .next { s with responses := s.responses ++ [⟨.illegalOp, c.op, .none⟩] }) ∧
  (∀ (op : Byte) (bs : List Byte), 0x06 ≤ op.toNat →
    formatOf op = .N ∧ (formatOf op).length = 1 ∧
    ∃ i : Instr, decode (op :: bs) = .ok (i, bs) ∧ encode i = [op] ∧
      ∀ s : State, exec i s =
        .next { s with responses := s.responses ++ [⟨.illegalOp, op, .none⟩] }) ∧
  (∀ (text : List Char) (op : Byte), Assembler.operand 8 text = .ok op → 0x06 ≤ op.toNat →
    Assembler.command ['.', 'b', 'y', 't', 'e'] [text] = .ok [op]) ∧
  Assembler.assemble ".byte 0x80".toList = .ok [0x80]

/-! ### Register Codec (40_register_codec.md) -/

/-- R400: ENC16 returns `a[15:8]`, then `a[7:0]`, in every state, and changes nothing. -/
def Obligations.Enc16ReturnsHighByteFirst : Prop :=
  (∀ (a : Word) (s : State),
    exec (.enc16 a) s = .next { s with responses := s.responses ++
      [⟨.ok, 0, .bytes (a.extractLsb' 8 8) (a.extractLsb' 0 8)⟩] }) ∧
  (∀ a : Word, encode (.enc16 a) = [0x01, a.extractLsb' 8 8, a.extractLsb' 0 8]) ∧
  (∀ (text : List Char) (a : Word), Assembler.operand 16 text = .ok a →
    Assembler.command ['E', 'N', 'C', '1', '6'] [text] = .ok (encode (.enc16 a))) ∧
  Assembler.assemble "ENC16 0x4282".toList = .ok [0x01, 0x42, 0x82]

/-- R405: DEC16 returns `(zext_16(b0) << 8) | zext_16(b1)`, in every state, and changes nothing. -/
def Obligations.Dec16ReturnsFirstByteHigh : Prop :=
  (∀ (b0 b1 : Byte) (s : State),
    exec (.dec16 b0 b1) s = .next { s with responses := s.responses ++
      [⟨.ok, 0, .word ((b0.setWidth 16 <<< 8) ||| b1.setWidth 16)⟩] }) ∧
  (∀ b0 b1 : Byte, encode (.dec16 b0 b1) = [0x02, b0, b1]) ∧
  (∀ (t0 t1 : List Char) (b0 b1 : Byte), Assembler.operand 8 t0 = .ok b0 →
    Assembler.operand 8 t1 = .ok b1 →
    Assembler.command ['D', 'E', 'C', '1', '6'] [t0, t1] = .ok (encode (.dec16 b0 b1))) ∧
  Assembler.assemble "DEC16 0x10, 0x00".toList = .ok [0x02, 0x10, 0x00]

/-- R405's corner case, an inference the spec marks as its own: the OR never carries, so the word is the
sum `256*b0 + b1`, and equals `{b0, b1}`. -/
def Obligations.Dec16WordIsSum : Prop :=
  ∀ (b0 b1 : Byte) (s t : State) (w : Word),
    exec (.dec16 b0 b1) s = .next t → t.responses = s.responses ++ [⟨.ok, 0, .word w⟩] →
    w.toNat = 256 * b0.toNat + b1.toNat ∧ w = joinBytes b0 b1

/-- R410: for all `v`, if ENC16 `v` returns `bytes(y0, y1)` then DEC16 `y0, y1`, issued next, returns
`word(v)`. -/
def Obligations.Dec16OfEnc16IsIdentity : Prop :=
  ∀ (v : Word) (s : State), ∃ (y0 y1 : Byte) (t u : State),
    exec (.enc16 v) s = .next t ∧ t.responses = s.responses ++ [⟨.ok, 0, .bytes y0 y1⟩] ∧
    exec (.dec16 y0 y1) t = .next u ∧ u.responses = t.responses ++ [⟨.ok, 0, .word v⟩]

/-- R411, an inference the spec marks as its own: ENC16 of the word DEC16 returns gives back the two
bytes. -/
def Obligations.Enc16OfDec16IsIdentity : Prop :=
  ∀ (b0 b1 : Byte) (s : State), ∃ (w : Word) (t u : State),
    exec (.dec16 b0 b1) s = .next t ∧ t.responses = s.responses ++ [⟨.ok, 0, .word w⟩] ∧
    exec (.enc16 w) t = .next u ∧ u.responses = t.responses ++ [⟨.ok, 0, .bytes b0 b1⟩]

/-! ### Configuration Word Assembler (41_config_assembler.md) -/

/-- R425: CFG_BUILD's answer under each policy, the word written out from the layout of R422. It
changes no state, under every policy. -/
def Obligations.CfgBuildAnswersByPolicy : Prop :=
  (∀ (f : Fields) (s : State),
    (s.policy = .orUnmasked →
      exec (.cfgBuild f) s = .next { s with responses := s.responses ++ [⟨.ok, 0, .word (BitVec.ofNat 16
        ((f.status.toNat <<< 15 ||| f.mux.toNat <<< 12 ||| f.gain.toNat <<< 9 ||| f.mode.toNat <<< 8 |||
          f.rate.toNat <<< 5 ||| f.compMode.toNat <<< 4 ||| f.compPol.toNat <<< 3 |||
          f.compLat.toNat <<< 2 ||| f.compQue.toNat <<< 0) % 2 ^ 16))⟩] }) ∧
    (s.policy = .mask →
      exec (.cfgBuild f) s = .next { s with responses := s.responses ++ [⟨.ok, 0, .word (BitVec.ofNat 16
        ((f.status.toNat % 2) <<< 15 ||| (f.mux.toNat % 8) <<< 12 ||| (f.gain.toNat % 8) <<< 9 |||
          (f.mode.toNat % 2) <<< 8 ||| (f.rate.toNat % 8) <<< 5 ||| (f.compMode.toNat % 2) <<< 4 |||
          (f.compPol.toNat % 2) <<< 3 ||| (f.compLat.toNat % 2) <<< 2 ||| (f.compQue.toNat % 4) <<< 0))⟩] }) ∧
    (s.policy = .reject → (∀ k : Field, (f.get k).toNat < 2 ^ k.width) →
      exec (.cfgBuild f) s = .next { s with responses := s.responses ++ [⟨.ok, 0, .word (BitVec.ofNat 16
        (f.status.toNat <<< 15 ||| f.mux.toNat <<< 12 ||| f.gain.toNat <<< 9 ||| f.mode.toNat <<< 8 |||
          f.rate.toNat <<< 5 ||| f.compMode.toNat <<< 4 ||| f.compPol.toNat <<< 3 |||
          f.compLat.toNat <<< 2 ||| f.compQue.toNat <<< 0))⟩] }) ∧
    (∀ k : Field, s.policy = .reject → 2 ^ k.width ≤ (f.get k).toNat →
      (∀ j : Field, j.index < k.index → (f.get j).toNat < 2 ^ j.width) →
      exec (.cfgBuild f) s = .next { s with responses := s.responses ++
        [⟨.fieldRange, BitVec.ofNat 8 k.index, .none⟩] })) ∧
  (∀ f : Fields, encode (.cfgBuild f) =
    [0x03, highByte f.status, lowByte f.status, highByte f.mux, lowByte f.mux, highByte f.gain,
      lowByte f.gain, highByte f.mode, lowByte f.mode, highByte f.rate, lowByte f.rate,
      highByte f.compMode, lowByte f.compMode, highByte f.compPol, lowByte f.compPol,
      highByte f.compLat, lowByte f.compLat, highByte f.compQue, lowByte f.compQue]) ∧
  (∀ (texts : List (List Char)) (f : Fields), Assembler.fieldOperands texts = .ok f →
    Assembler.command ['C', 'F', 'G', '_', 'B', 'U', 'I', 'L', 'D'] texts = .ok (encode (.cfgBuild f))) ∧
  Assembler.assemble "CFG_BUILD 0, 4, 1, 0, 4, 0, 0, 0, 2".toList = .ok (encode (.cfgBuild .reference))

/-- R428, R603: under REJECT, CFG_BUILD answers an error exactly when some value is oversized; the error
is `E_FIELD_RANGE`, with no result and the index of the lowest oversized field. No other policy and no
other command ever raises it. -/
def Obligations.FieldRangeOnlyUnderRejectAtLowestIndex : Prop :=
  (∀ (f : Fields) (s : State), ∃ (t : State) (r : Response),
    exec (.cfgBuild f) s = .next t ∧ t = { s with responses := s.responses ++ [r] } ∧
    (r.status = .fieldRange ↔ s.policy = .reject ∧ ∃ k : Field, 2 ^ k.width ≤ (f.get k).toNat) ∧
    (r.status = .fieldRange → r.result = .none ∧
      ∃ k : Field, r.info.toNat = k.index ∧ 2 ^ k.width ≤ (f.get k).toNat ∧
        ∀ j : Field, 2 ^ j.width ≤ (f.get j).toNat → k.index ≤ j.index) ∧
    (r.status ≠ .fieldRange → r.status = .ok ∧ ∃ w : Word, r.result = .word w)) ∧
  ∀ (i : Instr) (s t : State) (r : Response), (∀ f : Fields, i ≠ .cfgBuild f) →
    exec i s = .next t → t.responses = s.responses ++ [r] → r.status ≠ .fieldRange

/-- R426 (its last part is an inference the spec marks as its own): under OR_UNMASKED a field can
corrupt only bits at or above its own lowest bit. Changing one field's value never changes a lower bit
of the word. -/
def Obligations.UnmaskedFieldSpillsOnlyUpward : Prop :=
  ∀ (f : Fields) (k : Field) (v : Word) (s t u : State) (w w' : Word),
    s.policy = .orUnmasked →
    exec (.cfgBuild f) s = .next t → t.responses = s.responses ++ [⟨.ok, 0, .word w⟩] →
    exec (.cfgBuild (f.set k v)) s = .next u → u.responses = s.responses ++ [⟨.ok, 0, .word w'⟩] →
    ∀ j : Nat, j < k.shift → w.getLsbD j = w'.getLsbD j

/-- R429 (a), an inference the spec marks as its own: if every field fits, CFG_BUILD answers the same
word under every policy, and each field reads back from its bits. -/
def Obligations.InRangeFieldsReadBackUnderEveryPolicy : Prop :=
  ∀ f : Fields, (∀ k : Field, (f.get k).toNat < 2 ^ k.width) →
    ∃ w : Word,
      (∀ s : State, exec (.cfgBuild f) s =
        .next { s with responses := s.responses ++ [⟨.ok, 0, .word w⟩] }) ∧
      ∀ k : Field, fieldOf k w = (f.get k).toNat

/-- R429 (b), an inference the spec marks as its own: under MASK every field reads back as its value
`mod 2^w_i`, for every input. So no neighbouring field changes (R427). -/
def Obligations.MaskedFieldsReadBackReduced : Prop :=
  ∀ (f : Fields) (s : State), s.policy = .mask →
    ∃ w : Word,
      exec (.cfgBuild f) s = .next { s with responses := s.responses ++ [⟨.ok, 0, .word w⟩] } ∧
      ∀ k : Field, fieldOf k w = (f.get k).toNat % 2 ^ k.width

/-- R429 (c), an inference the spec marks as its own: the word of OR_UNMASKED is the word of MASK ORed
with the spilled bits of every field. -/
def Obligations.UnmaskedWordIsMaskedWordPlusSpill : Prop :=
  ∀ (f : Fields) (s t : State), s.policy = .orUnmasked → t = { s with policy := .mask } →
    ∃ w wMask : Word,
      exec (.cfgBuild f) s = .next { s with responses := s.responses ++ [⟨.ok, 0, .word w⟩] } ∧
      exec (.cfgBuild f) t = .next { t with responses := t.responses ++ [⟨.ok, 0, .word wMask⟩] } ∧
      w.toNat = wMask.toNat |||
        (orFields fun k => ((((f.get k).toNat >>> k.width) <<< (k.shift + k.width)) % 2 ^ 16))

/-- R424, an inference the spec marks as its own: the source's successive shift-and-OR equals the
positional OR on every input, oversized fields included, and gives the same word whether the accumulator
is cut to 16 bits at each step or only at the end. -/
def Obligations.SuccessivePackingEqualsPositional : Prop :=
  ∀ f : Fields, f.packed = f.shifted ∧ f.packedCut = BitVec.ofNat 16 f.packed ∧
    ∀ s : State, s.policy = .orUnmasked →
      exec (.cfgBuild f) s = .next { s with responses := s.responses ++ [⟨.ok, 0, .word f.packedCut⟩] }

/-- R423 (its value is an inference the spec marks as its own) and the examples of R426 to R428. -/
def Obligations.ReferenceFieldsBuild4282 : Prop :=
  (∀ s : State, exec (.cfgBuild ⟨0, 4, 1, 0, 4, 0, 0, 0, 2⟩) s =
    .next { s with responses := s.responses ++ [⟨.ok, 0, .word 0x4282⟩] }) ∧
  (∀ s : State, s.policy = .orUnmasked → exec (.cfgBuild ⟨0, 9, 1, 0, 4, 0, 0, 0, 2⟩) s =
    .next { s with responses := s.responses ++ [⟨.ok, 0, .word 0x9282⟩] }) ∧
  (∀ s : State, s.policy = .mask → exec (.cfgBuild ⟨0, 9, 1, 0, 4, 0, 0, 0, 2⟩) s =
    .next { s with responses := s.responses ++ [⟨.ok, 0, .word 0x1282⟩] }) ∧
  (∀ s : State, s.policy = .reject → exec (.cfgBuild ⟨0, 9, 1, 0, 4, 0, 0, 0, 2⟩) s =
    .next { s with responses := s.responses ++ [⟨.fieldRange, 1, .none⟩] })

/-- R422 (its mask and coverage facts are inferences the spec marks as its own), R110: the nine masks
are disjoint, and every word is the OR of its nine sub-fields at their shifts. -/
def Obligations.FieldsPartitionTheWord : Prop :=
  (∀ j k : Field, j ≠ k → j.maskBits &&& k.maskBits = 0) ∧
  (∀ w : Word, orFields (fun k => fieldOf k w <<< k.shift) = w.toNat) ∧
  (∀ w : Word, (gainOf w).toNat = fieldOf .gain w)

/-- R430: CFG_COMMIT latches its operand, whatever it is, marks it valid, answers `OK` with no result
and changes nothing else; a second commit overwrites the first, and committing the same word twice
leaves `CFG` and `CFG_VALID` as after the first; every later SCALE uses the new gain. -/
def Obligations.CfgCommitLatchesWord : Prop :=
  (∀ (a : Word) (s : State), exec (.cfgCommit a) s = .next { s with
    cfg := some a, cfgValid := true, responses := s.responses ++ [⟨.ok, 0, .none⟩] }) ∧
  (∀ a : Word, encode (.cfgCommit a) = [0x04, a.extractLsb' 8 8, a.extractLsb' 0 8]) ∧
  (∀ (text : List Char) (a : Word), Assembler.operand 16 text = .ok a →
    Assembler.command ['C', 'F', 'G', '_', 'C', 'O', 'M', 'M', 'I', 'T'] [text] =
      .ok (encode (.cfgCommit a))) ∧
  Assembler.assemble "CFG_COMMIT 0x4282".toList = .ok [0x04, 0x42, 0x82] ∧
  (∀ (a b : Word) (s t u : State), exec (.cfgCommit a) s = .next t → exec (.cfgCommit b) t = .next u →
    u.cfg = some b ∧ u.cfgValid = true ∧ (b = a → u.cfg = t.cfg ∧ u.cfgValid = t.cfgValid)) ∧
  (∀ (a x : Word) (s t : State), exec (.cfgCommit a) s = .next t →
    exec (.scale x) t = .next { t with responses := t.responses ++
      [⟨.ok, 0, .scaled (scaleResult (fsrMilliVolts (a.extractLsb' 9 3)) x)⟩] })

/-! ### Sample Scaler (42_sample_scaling.md) -/

/-- R450, R451, R453: with a committed word, SCALE answers `OK` with the exact product of the signed
sample and the full-scale range of the word's gain field, as a 32-bit two's-complement value; with none,
`E_NOCFG`; it changes nothing. Its encoding, its assembly and the rule's example, which rests on
`P_FSR_mV(1) = 4096` (R10). -/
def Obligations.ScaleReturnsExactProduct : Prop :=
  (∀ (a w : Word) (s : State), s.cfgValid = true → s.cfg = some w →
    ∃ r : Scaled,
      exec (.scale a) s = .next { s with responses := s.responses ++ [⟨.ok, 0, .scaled r⟩] } ∧
      r.toInt = (if a.toNat < 0x8000 then (a.toNat : Int) else (a.toNat : Int) - 0x10000) *
        ((fsrMilliVolts (w.extractLsb' 9 3)).toNat : Int)) ∧
  (∀ (a : Word) (s : State), s.cfgValid = false →
    exec (.scale a) s = .next { s with responses := s.responses ++ [⟨.noCfg, 0, .none⟩] }) ∧
  (∀ a : Word, encode (.scale a) = [0x05, a.extractLsb' 8 8, a.extractLsb' 0 8]) ∧
  (∀ (text : List Char) (a : Word), Assembler.operand 16 text = .ok a →
    Assembler.command ['S', 'C', 'A', 'L', 'E'] [text] = .ok (encode (.scale a))) ∧
  Assembler.assemble "SCALE 0x1000".toList = .ok [0x05, 0x10, 0x00] ∧
  ∀ s : State, s.cfgValid = true → s.cfg = some 0x4282 → exec (.scale 0x1000) s =
    .next { s with responses := s.responses ++ [⟨.ok, 0, .scaled 16777216⟩] }

/-- R604: SCALE while `CFG_VALID = 0` answers `E_NOCFG` with `info = 0` and no result, and changes
nothing; SCALE while `CFG_VALID = 1` and every other command never raise it. -/
def Obligations.ScaleBeforeCommitAnswersNoCfg : Prop :=
  (∀ (a : Word) (s : State), s.cfgValid = false →
    exec (.scale a) s = .next { s with responses := s.responses ++ [⟨.noCfg, 0, .none⟩] }) ∧
  ∀ (i : Instr) (s t : State) (r : Response), s.cfgValid = true ∨ (∀ a : Word, i ≠ .scale a) →
    exec i s = .next t → t.responses = s.responses ++ [r] → r.status ≠ .noCfg

/-- R452: the voltage of a sample is `V = signed(a) * FSR / 2^15` millivolts, that is
`V = s / 32768000` volts, for the `s` SCALE returns. -/
def Obligations.ScaledResultMeansVoltage : Prop :=
  ∀ (a w : Word) (s t : State) (r : Scaled), s.cfgValid = true → s.cfg = some w →
    exec (.scale a) s = .next t → t.responses = s.responses ++ [⟨.ok, 0, .scaled r⟩] →
    (r.toInt : Rat) / 32768000 * 1000 =
      (signed a : Rat) * ((fsrMilliVolts (w.extractLsb' 9 3)).toNat : Rat) / 2 ^ 15

/-- R455, an inference the spec marks as its own: the product lies in `[-2147450880, 2147385345]`, inside
the `s32` range, for every sample and every entry `P_FSR_mV` may have. -/
def Obligations.ScaleNeverOverflows : Prop :=
  ∀ (fsr : BitVec 16) (a : Word),
    -2147450880 ≤ scaleNumerator fsr a ∧ scaleNumerator fsr a ≤ 2147385345 ∧
    (scaleResult fsr a).toInt = scaleNumerator fsr a

/-- R456 (a) to (e), inferences the spec marks as its own, of the word a SCALE returns: zero, strict
monotony, symmetry, the extreme codes, one count. -/
def Obligations.ScalerLaws : Prop :=
  ∀ w : Word,
    let fsr : Int := ((fsrMilliVolts (gainOf w)).toNat : Int)
    let s : Word → Int := fun a => (scaledBy w a).toInt
    s 0 = 0 ∧
    (0 < fsr → ∀ a b : Word, signed a < signed b → s a < s b) ∧
    (∀ a : Word, a ≠ 0x8000 → s (-a) = -s a) ∧
    s 0x7FFF = 32767 * fsr ∧ s 0x8000 = -(32768 * fsr) ∧
    (∀ a : Word, a ≠ 0x7FFF → s (a + 1) - s a = fsr)

/-- R457, an inference the spec marks as its own, and R10's one fixed entry: at gain code 1 the result
is `sext_32(a) << 12`. -/
def Obligations.GainOneResultIsShiftedSample : Prop :=
  (fsrMilliVolts 1).toNat = 4096 ∧
  ∀ (a w : Word) (s : State), s.cfgValid = true → s.cfg = some w → fieldOf .gain w = 1 →
    exec (.scale a) s = .next { s with responses := s.responses ++
      [⟨.ok, 0, .scaled (a.signExtend 32 <<< 12)⟩] }

/-! ### Responses and errors (30_encoding.md, 60_exceptions.md) -/

/-- R307: a command that ends with an error status leaves `CFG` and `CFG_VALID` unchanged and returns
`result = none`; so a command writes state only when its status is `OK`. -/
def Obligations.ErrorLeavesStateUnchanged : Prop :=
  ∀ (i : Instr) (s t : State) (r : Response),
    exec i s = .next t → t.responses = s.responses ++ [r] → r.status ≠ .ok →
    r.result = .none ∧ t = { s with responses := s.responses ++ [r] }

/-- R306, R710: every command returns exactly one response, after all earlier ones, and the codes of
the statuses are 0 to 3. -/
def Obligations.OneResponsePerCommand : Prop :=
  (∀ (i : Instr) (s t : State), i.wellFormed = true → exec i s = .next t →
    ∃ r : Response, t.responses = s.responses ++ [r] ∧ r.legal = true) ∧
  Status.code .ok = 0 ∧ Status.code .illegalOp = 1 ∧ Status.code .fieldRange = 2 ∧ Status.code .noCfg = 3

/-- R605, its last sentence an inference the spec marks as its own: the possible statuses of each
command, by the opcode byte of its record. -/
def Obligations.StatusesOfEachCommand : Prop :=
  ∀ (c : Command) (s t : State) (r : Response),
    exec c.toInstr s = .next t → t.responses = s.responses ++ [r] →
    (c.op.toNat ∈ [0, 1, 2, 4] → r.status = .ok) ∧
    (c.op = 0x03 → r.status = .ok ∨ r.status = .fieldRange ∧ s.policy = .reject) ∧
    (c.op = 0x05 → r.status = .ok ∨ r.status = .noCfg ∧ s.cfgValid = false) ∧
    (0x06 ≤ c.op.toNat → r.status = .illegalOp)

/-- R309: "the step is total on every command record": in every good state every record's command
completes. -/
def Obligations.EveryRecordCompletes : Prop :=
  ∀ (c : Command) (s : State), Inv s → ∃ t : State, exec c.toInstr s = .next t ∧ Inv t

/-- R101, R102: `CFG` and `CFG_VALID` are written only by CFG_COMMIT, as a whole word, and cleared only
by the reset event, in every step. -/
def Obligations.OnlyCommitAndResetWriteCfg : Prop :=
  ∀ s t : State, step s = .next t →
    (t.cfg = s.cfg ∧ t.cfgValid = s.cfgValid) ∨
    (∃ rest, takeMove s.input = .resetEvent rest ∧ t.cfg = none ∧ t.cfgValid = false) ∨
    (∃ a rest, takeMove s.input = .command (.cfgCommit a) rest ∧ t.cfg = some a ∧ t.cfgValid = true)

/-- The frame of every command: the parameter and what the host still presents are untouched, no earlier
response changes, and every command but CFG_COMMIT leaves `CFG` and `CFG_VALID` as they were (R101,
R102, R108, R702). -/
def Obligations.CommandFrame : Prop :=
  ∀ (i : Instr) (s t : State), exec i s = .next t →
    t.policy = s.policy ∧ t.input = s.input ∧
    (∃ r : Response, t.responses = s.responses ++ [r]) ∧
    ((∀ a : Word, i ≠ .cfgCommit a) → t.cfg = s.cfg ∧ t.cfgValid = s.cfgValid)

/-! ### Reset (70_reset_and_hazards.md) -/

/-- R112, R700: the reset event sets `CFG_VALID` to 0 and leaves `CFG` without a value (R104), and is
taken between commands, in one step, whatever the state. The other fields, the model's own, are as they
were (log 10). -/
def Obligations.ResetEventClearsValid : Prop :=
  ∀ (s : State) (rest : List HostMove), s.input = .reset :: rest →
    step s = .next { s with cfg := none, cfgValid := false, input := rest }

/-- R701, R702, R11: at power-on the block is in the reset state, with the default policy. That `CFG`
without a value is written `none` is log 3, the empty interface logs 1 and 2. -/
def Obligations.PowerOnIsResetState : Prop :=
  State.reset.cfgValid = false ∧ State.reset.cfg = none ∧ State.reset.policy = .orUnmasked ∧
    State.reset.input = [] ∧ State.reset.responses = [] ∧ Inv State.reset

/-! ### Presentation and decoding (30_encoding.md) -/

/-- A step runs the decoded command: when the stream the host presents decodes to `i`, the step is
exec of `i` with the bytes of `i` taken; when it presents a record, exec of the record's command (R300,
R302, R311). The input's form is the model's, log 1. -/
def Obligations.StepRunsTheDecodedCommand : Prop :=
  (∀ (s : State) (bs left : List Byte) (rest : List HostMove) (i : Instr),
    s.input = .stream bs :: rest → decode bs = .ok (i, left) →
    step s = exec i { s with input := if left = [] then rest else .stream left :: rest }) ∧
  (∀ (s : State) (c : Command) (rest : List HostMove), s.input = .command c :: rest →
    step s = exec c.toInstr { s with input := rest })

/-- With nothing presented, a step changes nothing (the model's choice, log 7; the block only waits for
its next command, R206). -/
def Obligations.IdleStepChangesNothing : Prop :=
  ∀ s : State, s.input = [] → step s = .next s

/-- R311, I9: a stream that ends inside a command's operand bytes is refused, exactly when it is shorter
than the length its opcode byte fixes, and the block never sees it. -/
def Obligations.TruncatedStreamIsRefused : Prop :=
  (∀ (op : Byte) (bs : List Byte),
    decode (op :: bs) = .error (.truncated op) ↔ (op :: bs).length < (formatOf op).length) ∧
  ∀ (s : State) (op : Byte) (bs : List Byte) (rest : List HostMove),
    s.input = .stream (op :: bs) :: rest → (op :: bs).length < (formatOf op).length →
    step s = .refused (.truncatedCommand op)

/-- R308: operand fields a command's format does not read are ignored: two records that agree on `op`
and on the fields of its format are the same command. -/
def Obligations.UnreadOperandsAffectNothing : Prop :=
  ∀ (c d : Command) (s : State), c.op = d.op →
    (formatOf c.op = .W → c.a = d.a) →
    (formatOf c.op = .BB → c.b0 = d.b0 ∧ c.b1 = d.b1) →
    (formatOf c.op = .F9 → c.f = d.f) →
    exec c.toInstr s = exec d.toInstr s

/-- Words written out from R303's and R311's encodings decode to their commands, one of each row. -/
def Obligations.SampleStreamsDecode : Prop :=
  decode [0x00] = .ok (.nop, []) ∧
  decode [0x01, 0x12, 0x34] = .ok (.enc16 0x1234, []) ∧
  decode [0x02, 0x12, 0x34] = .ok (.dec16 0x12 0x34, []) ∧
  decode [0x03, 0x00, 0x01, 0x00, 0x02, 0x00, 0x03, 0x00, 0x04, 0x00, 0x05, 0x00, 0x06, 0x00, 0x07,
    0x00, 0x08, 0xF0, 0x09] = .ok (.cfgBuild ⟨1, 2, 3, 4, 5, 6, 7, 8, 0xF009⟩, []) ∧
  decode [0x04, 0x42, 0x82] = .ok (.cfgCommit 0x4282, []) ∧
  decode [0x05, 0x10, 0x00] = .ok (.scale 0x1000, []) ∧
  decode [0x06] = .ok (.reserved06 0x06, []) ∧ decode [0x0B] = .ok (.reserved08 0x0B, []) ∧
  decode [0x1F] = .ok (.reserved10 0x1F, []) ∧ decode [0x20] = .ok (.reserved20 0x20, []) ∧
  decode [0x7F] = .ok (.reserved40 0x7F, []) ∧ decode [0xFF] = .ok (.reserved80 0xFF, [])

/-- Decoding the encoding of any well-formed instruction gives it back, every operand at every value,
and leaves the bytes after it (R311). -/
def Obligations.DecodeOfEncodeIsIdentity : Prop :=
  ∀ (i : Instr) (rest : List Byte), i.wellFormed = true → decode (encode i ++ rest) = .ok (i, rest)

/-- What the decoder reads is well formed, and its bytes are the encoding of it: each stream has one
reading (R303, R311). -/
def Obligations.DecodedBytesAreTheEncoding : Prop :=
  ∀ (bs left : List Byte) (i : Instr), decode bs = .ok (i, left) →
    i.wellFormed = true ∧ bs = encode i ++ left

/-! ### Whole-machine statements -/

/-- Every step keeps the invariant: `CFG_VALID` tells whether `CFG` holds a word, and every response is
one of R306's. -/
def Obligations.StepKeepsInv : Prop :=
  ∀ s t : State, Inv s → step s = .next t → Inv t

/-- From a good state no number of steps ends in a fault; where a run does not complete, the host
presented a truncated stream (I9). -/
def Obligations.RunsNeverFault : Prop :=
  ∀ (k : Nat) (s : State), Inv s →
    (∃ t, Sys2Proof.core.run k s = .next t ∧ Inv t) ∨
    ∃ op, Sys2Proof.core.run k s = .refused (.truncatedCommand op)

/-- Isolation (R101, R104, R458): the host never learns `CFG` before a commit, nor any bit of a committed
word but its gain field. Two states alike to the host stay alike through any number of steps. -/
def Obligations.HostSeesOnlyTheGainOfCfg : Prop :=
  ∀ (k : Nat) (s t : State), SameToHost s t →
    OutcomesAgree (Sys2Proof.core.run k s) (Sys2Proof.core.run k t)

/-- R205, R301: a stream of commands takes effect in order, one step a command, each on the state the
one before it left; then the moves after the stream stand next. -/
def Obligations.StreamRunsInOrder : Prop :=
  ∀ (is : List Instr) (s : State) (rest : List HostMove),
    is ≠ [] → (∀ i ∈ is, i.wellFormed = true) → Inv s → s.input = .stream (encodeAll is) :: rest →
    ∃ t : State, Sys2Proof.core.run is.length s = .next t ∧
      execAll is { s with input := rest } = .next t ∧ t.input = rest ∧
      t.responses.length = s.responses.length + is.length

/-- R720: a CFG_COMMIT's write is visible to the very next command, a SCALE straight after it, with no
step between. -/
def Obligations.CommitVisibleToNextScale : Prop :=
  ∀ (s : State) (w a : Word) (rest : List HostMove) (c d : Command),
    c.op = 0x04 → c.a = w → d.op = 0x05 → d.a = a → s.input = .command c :: .command d :: rest →
    Sys2Proof.core.run 2 s = .next { s with
      cfg := some w, cfgValid := true, input := rest,
      responses := s.responses ++ [⟨.ok, 0, .none⟩, ⟨.ok, 0, .scaled (scaledBy w a)⟩] }

/-- R703, R711, R431 (the duties as log 15 reads them): a host that keeps its duties, from any point
where it and the block are in step, never meets `E_NOCFG` and never stops the block; the word whose gain
SCALE uses stays the word it wrote to the device, and the word it scales that of the bytes it read. -/
def Obligations.DutifulHostNeverMeetsNoCfg : Prop :=
  ∀ (as : List HostAction) (v v' : HostView) (s : State),
    InStep v s → v.afterAll (transcript as s) = some v' →
    ∃ (t : State) (new : List Response), actAll as s = .next t ∧ InStep v' t ∧
      t.responses = s.responses ++ new ∧ ∀ r ∈ new, r.status ≠ .noCfg

/-- R711 (b), (c), (e), R431 (the duties as log 15 reads them): each SCALE of a host that keeps its
duties from `Initializing` converts the two bytes of its last successful read, with the gain of a word
that CFG_BUILD returned and whose write to the device succeeded. -/
def Obligations.DutifulScaleConvertsTheReading : Prop :=
  ∀ (as : List HostAction) (a : Word) (v v' : HostView) (s t : State) (answer : Option Response),
    HostView.start.afterAll (transcript as s) = some v → actAll as s = .next t →
    v.after answer (.command (.scale a)) = some v' →
    ∃ (b0 b1 : Byte) (w : Word), v.read = some (b0, b1) ∧ v.written = some w ∧
      (∃ (f : Fields) (x y : State), .command (.cfgBuild f) ∈ as ∧ exec (.cfgBuild f) x = .next y ∧
        answerFrom x y = some ⟨.ok, 0, .word w⟩ ∧ x.policy = s.policy) ∧
      .configWrite w true ∈ as ∧ .conversionRead (some (b0, b1)) ∈ as ∧
      exec (.scale a) t = .next { t with responses := t.responses ++
        [⟨.ok, 0, .scaled (scaledBy w (decode16 b0 b1))⟩] }

/-- R711: what the duties forbid. A host breaks one by writing a word CFG_BUILD did not last return
(b), by committing another word than the written one or before the write succeeded (c), by any bus work
after a failed write (d), by DEC16 of bytes it did not read, by SCALE of a word DEC16 did not return for
them or after a failed read (e), and by a second commit (f). The reading is log 15's. -/
def Obligations.BreachesOfTheHostDuties : Prop :=
  ∀ (v : HostView) (answer : Option Response),
    (∀ (w : Word) (ok : Bool), v.built ≠ some w → v.after answer (.configWrite w ok) = none) ∧
    (∀ a : Word, v.written ≠ some a ∨ v.committed = true →
      v.after answer (.command (.cfgCommit a)) = none) ∧
    (v.phase = .disabled → (∀ (w : Word) (ok : Bool), v.after answer (.configWrite w ok) = none) ∧
      ∀ got, v.after answer (.conversionRead got) = none) ∧
    (∀ b0 b1 : Byte, v.read ≠ some (b0, b1) → v.after answer (.command (.dec16 b0 b1)) = none) ∧
    (∀ a : Word, v.decoded ≠ some a → v.after answer (.command (.scale a)) = none) ∧
    ∀ (v' : HostView) (a : Word), v.after answer (.conversionRead none) = some v' →
      v'.after answer (.command (.scale a)) = none

/-! ### External context (20_memory.md section 4) -/

/-- R212: a register write sends start, the address byte, the register id, the two bytes ENC16 returns
for the value, in order, and stop; the configuration register's id is `0x01`. That the address byte of a
write is `{P_DEV_ADDR7,0}` rests on the direction-bit convention, PRESUMED (R211, D32, G1, log 6). -/
def Obligations.RegisterWriteSendsEnc16Bytes : Prop :=
  (∀ (reg : External.DeviceRegister) (w : Word) (s t : State) (y0 y1 : Byte),
    exec (.enc16 w) s = .next t → t.responses = s.responses ++ [⟨.ok, 0, .bytes y0 y1⟩] →
    External.Transaction.frame (.registerWrite reg w) =
      [.start, .send (Config.devAddr7 ++ (0 : BitVec 1)), .send reg.id, .send y0, .send y1, .stop]) ∧
  External.DeviceRegister.id .configuration = 0x01

/-- R213, R215, R406: a register read is the pointer-set phase and then, only if that succeeded, the data
phase; a failure of either is a `BusFailure` with the raw status kept; a success returns the word DEC16
returns for the two bytes. -/
def Obligations.ReadRegisterPhases : Prop :=
  (∀ (reg : External.DeviceRegister) (raw : External.BusStatus)
      (b : Except External.BusStatus (Byte × Byte)),
    External.readTransactions reg (.error raw) = [.pointerSet reg] ∧
    External.readRegister (.error raw) b = .error (.busFailure raw)) ∧
  (∀ (reg : External.DeviceRegister) (raw : External.BusStatus),
    External.readTransactions reg (.ok ()) = [.pointerSet reg, .dataRead] ∧
    External.readRegister (.ok ()) (.error raw) = .error (.busFailure raw)) ∧
  ∀ (b0 b1 : Byte) (w : Word) (s t : State),
    exec (.dec16 b0 b1) s = .next t → t.responses = s.responses ++ [⟨.ok, 0, .word w⟩] →
    External.readRegister (.ok ()) (.ok (b0, b1)) = .ok w

/-- R214: a phase (b) read returns the register last selected by a pointer-set, whatever register
writes and data reads come after it. That a pointer-set counts whether or not it succeeded is the
model's choice, log 16. -/
def Obligations.DataReadReturnsLastPointerSet : Prop :=
  ∀ (before after : List External.Transaction) (reg : External.DeviceRegister),
    (∀ x ∈ after, ∀ r, x ≠ .pointerSet r) →
    External.selectedRegister (before ++ .pointerSet reg :: after) = some reg
end

