-- ==== Sys2Proof/Laws/Decode.lean ====
section
/-! SUPPORT. The small lemmas of byte order, of the operand readers and of the opcode dispatch. -/

namespace Sys2Proof

@[simp] theorem highByte_joinBytes (hi lo : Byte) : highByte (joinBytes hi lo) = hi := by
  unfold highByte joinBytes
  ext j hj
  have : 8 + j < 16 := by omega
  simp [this, BitVec.getLsbD_eq_getElem hj]

@[simp] theorem lowByte_joinBytes (hi lo : Byte) : lowByte (joinBytes hi lo) = lo := by
  unfold lowByte joinBytes
  ext j hj
  have : j < 16 := by omega
  simp [this, hj]

@[simp] theorem joinBytes_highByte_lowByte (v : Word) : joinBytes (highByte v) (lowByte v) = v := by
  unfold highByte lowByte joinBytes
  ext j hj
  by_cases h : j < 8
  · simp [h, hj]
  · have : 8 + (j - 8) = j := by omega
    have : j - 8 < 8 := by omega
    simp_all

/-- The bytes do not overlap, so the OR of `joinBytes` is a sum (R405's corner case). -/
theorem joinBytes_toNat (hi lo : Byte) : (joinBytes hi lo).toNat = 256 * hi.toNat + lo.toNat := by
  have hb : hi.toNat <<< 8 < 2 ^ 16 := by rw [Nat.shiftLeft_eq]; omega
  unfold joinBytes
  rw [BitVec.toNat_or, BitVec.toNat_shiftLeft, BitVec.toNat_setWidth, BitVec.toNat_setWidth,
    Nat.mod_eq_of_lt (by omega : hi.toNat < 2 ^ 16), Nat.mod_eq_of_lt hb,
    Nat.mod_eq_of_lt (by omega : lo.toNat < 2 ^ 16), Nat.shiftLeft_eq, Nat.mul_comm,
    ← Nat.two_pow_add_eq_or_of_lt lo.isLt]

@[simp] theorem takeWord_wordBytes (v : Word) (rest : List Byte) :
    takeWord (wordBytes v ++ rest) = some (v, rest) := by
  simp [wordBytes, takeWord]

/-- `takeWord` reads exactly the two bytes of the word it returns. -/
theorem takeWord_some {bs rest : List Byte} {v : Word} (h : takeWord bs = some (v, rest)) :
    bs = wordBytes v ++ rest := by
  match bs, h with
  | hi :: lo :: _, h =>
    simp only [takeWord, Option.some.injEq, Prod.mk.injEq] at h
    obtain ⟨rfl, rfl⟩ := h
    simp [wordBytes]

theorem takeWord_none {bs : List Byte} : takeWord bs = none ↔ bs.length < 2 := by
  match bs with
  | [] => simp [takeWord]
  | [_] => simp [takeWord]
  | _ :: _ :: _ => simp [takeWord]

@[simp] theorem wordBytes_length (v : Word) : (wordBytes v).length = 2 := rfl

@[simp] theorem Fields.bytes_length (f : Fields) : f.bytes.length = 18 := rfl

@[simp] theorem takeFields_bytes (f : Fields) (rest : List Byte) :
    takeFields (f.bytes ++ rest) = some (f, rest) := by
  simp [takeFields, Fields.bytes]

/-- `takeFields` reads exactly the eighteen bytes of the operand it returns. -/
theorem takeFields_some {bs rest : List Byte} {f : Fields} (h : takeFields bs = some (f, rest)) :
    bs = f.bytes ++ rest := by
  simp only [takeFields, Option.bind_eq_bind, Option.bind_eq_some_iff, Option.pure_def,
    Option.some.injEq, Prod.mk.injEq, Prod.exists] at h
  obtain ⟨_, _, h0, _, _, h1, _, _, h2, _, _, h3, _, _, h4, _, _, h5, _, _, h6, _, _, h7, _, _, h8,
    rfl, rfl⟩ := h
  rw [takeWord_some h0, takeWord_some h1, takeWord_some h2, takeWord_some h3, takeWord_some h4,
    takeWord_some h5, takeWord_some h6, takeWord_some h7, takeWord_some h8]
  simp [Fields.bytes]

theorem takeWord_of_length {bs : List Byte} {n : Nat} (h : n + 2 ≤ bs.length) :
    ∃ v rest, takeWord bs = some (v, rest) ∧ n ≤ rest.length := by
  match bs, h with
  | hi :: lo :: rest, h => exact ⟨joinBytes hi lo, rest, rfl, by simpa using h⟩

/-- Eighteen bytes are enough for the operand of format F9 (R311). -/
theorem takeFields_none {bs : List Byte} : takeFields bs = none ↔ bs.length < 18 := by
  constructor
  · intro h
    by_contra hc
    obtain ⟨v0, b0, e0, l0⟩ := takeWord_of_length (bs := bs) (n := 16) (by omega)
    obtain ⟨v1, b1, e1, l1⟩ := takeWord_of_length (n := 14) l0
    obtain ⟨v2, b2, e2, l2⟩ := takeWord_of_length (n := 12) l1
    obtain ⟨v3, b3, e3, l3⟩ := takeWord_of_length (n := 10) l2
    obtain ⟨v4, b4, e4, l4⟩ := takeWord_of_length (n := 8) l3
    obtain ⟨v5, b5, e5, l5⟩ := takeWord_of_length (n := 6) l4
    obtain ⟨v6, b6, e6, l6⟩ := takeWord_of_length (n := 4) l5
    obtain ⟨v7, b7, e7, l7⟩ := takeWord_of_length (n := 2) l6
    obtain ⟨v8, b8, e8, -⟩ := takeWord_of_length (n := 0) l7
    simp [takeFields, e0, e1, e2, e3, e4, e5, e6, e7, e8] at h
  · intro h
    cases hf : takeFields bs with
    | none => rfl
    | some p =>
      rw [takeFields_some (f := p.1) (rest := p.2) hf] at h
      simp at h

/-- An opcode byte outside the eleven other rows of the table lies in the row `1xxxxxxx` (R303). -/
theorem last_row (op : Byte) (h0 : op ≠ 0x00#8) (h1 : op ≠ 0x01#8) (h2 : op ≠ 0x02#8) (h3 : op ≠ 0x03#8)
    (h4 : op ≠ 0x04#8) (h5 : op ≠ 0x05#8) (h06 : op &&& 0xFE#8 ≠ 0x06#8) (h08 : op &&& 0xF8#8 ≠ 0x08#8)
    (h10 : op &&& 0xF0#8 ≠ 0x10#8) (h20 : op &&& 0xE0#8 ≠ 0x20#8) (h40 : op &&& 0xC0#8 ≠ 0x40#8) :
    op &&& 0x80#8 = 0x80#8 := by
  have all : ∀ v : BitVec 8, (v == 0x00#8 || v == 0x01#8 || v == 0x02#8 || v == 0x03#8 || v == 0x04#8 ||
      v == 0x05#8 || v &&& 0xFE#8 == 0x06#8 || v &&& 0xF8#8 == 0x08#8 || v &&& 0xF0#8 == 0x10#8 ||
      v &&& 0xE0#8 == 0x20#8 || v &&& 0xC0#8 == 0x40#8 || v &&& 0x80#8 == 0x80#8) = true := by decide
  have := all op
  simp_all

/-- The opcode dispatch keeps the opcode byte: it is the first byte of the command's encoding, and the
command is well formed (R303, R309). -/
theorem toInstr_head (c : Command) :
    c.toInstr.wellFormed = true ∧ (encode c.toInstr).head? = some c.op := by
  unfold Command.toInstr
  split
  next h => simp [Instr.wellFormed, encode, h]
  rename_i h0
  split
  next h => simp [Instr.wellFormed, encode, h]
  rename_i h1
  split
  next h => simp [Instr.wellFormed, encode, h]
  rename_i h2
  split
  next h => simp [Instr.wellFormed, encode, h]
  rename_i h3
  split
  next h => simp [Instr.wellFormed, encode, h]
  rename_i h4
  split
  next h => simp [Instr.wellFormed, encode, h]
  rename_i h5
  split
  next h => simp [Instr.wellFormed, encode, h]
  rename_i h06
  split
  next h => simp [Instr.wellFormed, encode, h]
  rename_i h08
  split
  next h => simp [Instr.wellFormed, encode, h]
  rename_i h10
  split
  next h => simp [Instr.wellFormed, encode, h]
  rename_i h20
  split
  next h => simp [Instr.wellFormed, encode, h]
  rename_i h40
  simp [Instr.wellFormed, encode, last_row c.op h0 h1 h2 h3 h4 h5 h06 h08 h10 h20 h40]

/-- A command whose opcode byte is reserved stands in a RESERVED row and keeps the byte (R481). -/
theorem toInstr_reserved (c : Command) (h : 6 ≤ c.op.toNat) :
    c.toInstr ∈ [Instr.reserved06 c.op, .reserved08 c.op, .reserved10 c.op, .reserved20 c.op,
      .reserved40 c.op, .reserved80 c.op] := by
  have ne (n : Byte) (hn : n.toNat < 6) : c.op ≠ n := fun e => by rw [e] at h; omega
  unfold Command.toInstr
  rw [if_neg (ne _ (by decide)), if_neg (ne _ (by decide)), if_neg (ne _ (by decide)),
    if_neg (ne _ (by decide)), if_neg (ne _ (by decide)), if_neg (ne _ (by decide))]
  repeat' split
  all_goals simp

end Sys2Proof
end

