-- ==== Sys2Proof/Laws/Operands.lean ====
section
/-! SUPPORT. One lemma per operand computation that says what it gives, bit by bit where it is an OR of
shifted fields. -/

namespace Sys2Proof

/-- A fact about every sub-field is a fact about each of the nine. -/
theorem forall_field (P : Field → Prop) :
    (∀ k, P k) ↔ P .status ∧ P .mux ∧ P .gain ∧ P .mode ∧ P .rate ∧ P .compMode ∧ P .compPol ∧
      P .compLat ∧ P .compQue :=
  ⟨fun h => ⟨h _, h _, h _, h _, h _, h _, h _, h _, h _⟩,
    fun ⟨h0, h1, h2, h3, h4, h5, h6, h7, h8⟩ k => by cases k <;> assumption⟩

theorem firstOversized_none (f : Fields) :
    f.firstOversized = none ↔ ∀ k : Field, (f.get k).toNat < 2 ^ k.width := by
  rw [forall_field]
  simp [Fields.firstOversized, Field.all, Fields.oversized]

/-- The sub-field `firstOversized` gives is oversized, and none of lower index is (R428). -/
theorem firstOversized_some {f : Fields} {k : Field} (h : f.firstOversized = some k) :
    2 ^ k.width ≤ (f.get k).toNat ∧
      ∀ j : Field, j.index < k.index → (f.get j).toNat < 2 ^ j.width := by
  rw [forall_field]
  simp only [Fields.firstOversized, Field.all, Fields.oversized, List.find?_cons] at h
  repeat' split at h
  all_goals simp at h
  all_goals subst h
  all_goals simp [Field.index] at *
  all_goals simp [*]

/-- A bit of `OR_{i=0..8} g(i)` is set where it is set in some `g(i)`. -/
theorem orFields_testBit (g : Field → Nat) (j : Nat) :
    (orFields g).testBit j = Field.all.any fun k => (g k).testBit j := by
  simp [orFields, Field.all, Bool.or_assoc]

/-- A bit of a sub-field is the bit of the word at the sub-field's shift (R110). -/
theorem fieldOf_testBit (k : Field) (w : Word) (j : Nat) :
    (fieldOf k w).testBit j = (decide (j < k.width) && w.toNat.testBit (k.shift + j)) := by
  simp [fieldOf, Nat.testBit_mod_two_pow, Nat.testBit_shiftRight]

/-- Every sub-field ends within the word (R422). -/
theorem shift_add_width_le (k : Field) : k.shift + k.width ≤ 16 := by cases k <;> decide

/-- Under MASK nothing reaches bit 16, so the exact OR is the word (R427). -/
theorem maskWord_toNat (f : Fields) : (maskWord f).toNat = f.masked := by
  unfold maskWord
  rw [BitVec.toNat_ofNat]
  apply Nat.mod_eq_of_lt
  simp only [Fields.masked, orFields, Field.all, Fields.get, Field.shift, Field.width, List.foldl]
  repeat' apply Nat.or_lt_two_pow
  all_goals simp [Nat.shiftLeft_eq]
  all_goals omega

/-- The range of a signed sample (R450). -/
theorem signed_bounds (a : Word) : -32768 ≤ signed a ∧ signed a ≤ 32767 := by
  unfold signed
  split <;> omega

end Sys2Proof
end

