-- ==== Sys2Proof/Laws/State.lean ====
section
/-! SUPPORT. One lemma per field of State per update, so that no proof unfolds a record update. -/

namespace Sys2Proof.Machine

/-! ### `respond` -/

@[simp] theorem respond_cfg (r : Response) (s : State) : (respond r s).cfg = s.cfg := rfl
@[simp] theorem respond_cfgValid (r : Response) (s : State) : (respond r s).cfgValid = s.cfgValid := rfl
@[simp] theorem respond_policy (r : Response) (s : State) : (respond r s).policy = s.policy := rfl
@[simp] theorem respond_input (r : Response) (s : State) : (respond r s).input = s.input := rfl
@[simp] theorem respond_responses (r : Response) (s : State) :
    (respond r s).responses = s.responses ++ [r] := rfl

/-! ### `latchCfg` -/

@[simp] theorem latchCfg_cfg (w : Word) (s : State) : (latchCfg w s).cfg = some w := rfl
@[simp] theorem latchCfg_cfgValid (w : Word) (s : State) : (latchCfg w s).cfgValid = true := rfl
@[simp] theorem latchCfg_policy (w : Word) (s : State) : (latchCfg w s).policy = s.policy := rfl
@[simp] theorem latchCfg_input (w : Word) (s : State) : (latchCfg w s).input = s.input := rfl
@[simp] theorem latchCfg_responses (w : Word) (s : State) :
    (latchCfg w s).responses = s.responses := rfl

/-! ### `resetBlock` -/

@[simp] theorem resetBlock_cfg (s : State) : (resetBlock s).cfg = none := rfl
@[simp] theorem resetBlock_cfgValid (s : State) : (resetBlock s).cfgValid = false := rfl
@[simp] theorem resetBlock_policy (s : State) : (resetBlock s).policy = s.policy := rfl
@[simp] theorem resetBlock_input (s : State) : (resetBlock s).input = s.input := rfl
@[simp] theorem resetBlock_responses (s : State) : (resetBlock s).responses = s.responses := rfl

/-! ### `setInput` -/

@[simp] theorem setInput_cfg (m : List HostMove) (s : State) : (setInput m s).cfg = s.cfg := rfl
@[simp] theorem setInput_cfgValid (m : List HostMove) (s : State) :
    (setInput m s).cfgValid = s.cfgValid := rfl
@[simp] theorem setInput_policy (m : List HostMove) (s : State) :
    (setInput m s).policy = s.policy := rfl
@[simp] theorem setInput_input (m : List HostMove) (s : State) : (setInput m s).input = m := rfl
@[simp] theorem setInput_responses (m : List HostMove) (s : State) :
    (setInput m s).responses = s.responses := rfl

end Sys2Proof.Machine
end

