-- ==== Sys2Proof/Laws/Ops.lean ====
section
/-! SUPPORT. One lemma per shared operation that says everything it can do, and one inversion lemma for
exec: provers cite these instead of unfolding a meaning. -/

namespace Sys2Proof.Machine

/-- `succeed` always answers, with the one `OK` response and nothing else. -/
theorem succeed_eq (x : Result) (s : State) : succeed x s = .next (respond ⟨.ok, 0, x⟩ s) := rfl

/-- `raise` always answers, with the one error response and nothing else (R601). -/
theorem raise_eq (e : Status) (info : Byte) (s : State) :
    raise e info s = .next (respond ⟨e, info, .none⟩ s) := rfl

/-- Everything CFG_BUILD can answer: a word, or under REJECT the lowest oversized index (R425). -/
theorem execCfgBuild_cases (f : Fields) (s : State) :
    (s.policy = .orUnmasked ∧ execCfgBuild f s = .next (respond ⟨.ok, 0, .word (orWord f)⟩ s)) ∨
    (s.policy = .mask ∧ execCfgBuild f s = .next (respond ⟨.ok, 0, .word (maskWord f)⟩ s)) ∨
    (s.policy = .reject ∧ f.firstOversized = none ∧
      execCfgBuild f s = .next (respond ⟨.ok, 0, .word (orWord f)⟩ s)) ∨
    (∃ k, s.policy = .reject ∧ f.firstOversized = some k ∧
      execCfgBuild f s = .next (respond ⟨.fieldRange, BitVec.ofNat 8 k.index, .none⟩ s)) := by
  unfold execCfgBuild
  cases hp : s.policy with
  | orUnmasked => exact .inl ⟨rfl, rfl⟩
  | mask => exact .inr (.inl ⟨rfl, rfl⟩)
  | reject =>
    cases hf : f.firstOversized with
    | none => exact .inr (.inr (.inl ⟨rfl, rfl, rfl⟩))
    | some k => exact .inr (.inr (.inr ⟨k, rfl, rfl, rfl⟩))

/-- Everything SCALE can answer (R450, R604, I3). -/
theorem execScale_cases (a : Word) (s : State) :
    (s.cfgValid = false ∧ execScale a s = .next (respond ⟨.noCfg, 0, .none⟩ s)) ∨
    (∃ w, s.cfgValid = true ∧ s.cfg = some w ∧
      execScale a s = .next (respond ⟨.ok, 0, .scaled (scaledBy w a)⟩ s)) ∨
    (s.cfgValid = true ∧ s.cfg = none ∧ execScale a s = .fault .cfgHoldsNoValue) := by
  unfold execScale
  cases hv : s.cfgValid with
  | false => exact .inl ⟨rfl, rfl⟩
  | true =>
    cases hc : s.cfg with
    | none => exact .inr (.inr ⟨rfl, rfl, rfl⟩)
    | some w => exact .inr (.inl ⟨w, rfl, rfl, rfl⟩)

/-- Everything a command can do: return one response on an unchanged block; latch a word and return
`OK`; or, only SCALE in a state where `CFG_VALID` does not tell the truth, fault. -/
theorem exec_cases (i : Instr) (s : State) :
    (∃ r, (∀ a, i ≠ .cfgCommit a) ∧ exec i s = .next (respond r s)) ∨
    (∃ a, i = .cfgCommit a ∧ exec i s = .next (respond ⟨.ok, 0, .none⟩ (latchCfg a s))) ∨
    (∃ a, i = .scale a ∧ s.cfgValid = true ∧ s.cfg = none ∧ exec i s = .fault .cfgHoldsNoValue) := by
  cases i with
  | cfgCommit a => exact .inr (.inl ⟨a, rfl, rfl⟩)
  | cfgBuild f =>
    rcases execCfgBuild_cases f s with ⟨-, h⟩ | ⟨-, h⟩ | ⟨-, -, h⟩ | ⟨k, -, -, h⟩ <;>
      exact .inl ⟨_, nofun, h⟩
  | scale a =>
    rcases execScale_cases a s with ⟨-, h⟩ | ⟨w, -, -, h⟩ | ⟨hv, hc, h⟩
    · exact .inl ⟨_, nofun, h⟩
    · exact .inl ⟨_, nofun, h⟩
    · exact .inr (.inr ⟨a, rfl, hv, hc, h⟩)
  | _ => exact .inl ⟨_, nofun, rfl⟩

/-- No command is refused. -/
theorem exec_ne_refused (i : Instr) (s : State) (r : Refusal) : exec i s ≠ .refused r := by
  rcases exec_cases i s with ⟨_, -, h⟩ | ⟨_, -, h⟩ | ⟨_, -, -, -, h⟩ <;> simp [h]

end Sys2Proof.Machine
end

