-- ==== Sys2Proof/Laws/PerInstr.lean ====
section
/-! SUPPORT. Statements made per instruction: the encoding's length and first byte are those R311 fixes
by the opcode byte. -/

namespace Sys2Proof.Laws.EncodingShape

/-- The encoding of a well-formed instruction starts with an opcode byte whose format gives the
encoding's length (R303, R311). -/
def Statement (i : Instr) : Prop :=
  i.wellFormed = true → ∃ op bs, encode i = op :: bs ∧ (encode i).length = (formatOf op).length

theorem nop : Statement .nop := fun _ => ⟨0, [], rfl, rfl⟩

theorem enc16 (a : Word) : Statement (.enc16 a) := fun _ => ⟨1, wordBytes a, rfl, rfl⟩

theorem dec16 (b0 b1 : Byte) : Statement (.dec16 b0 b1) := fun _ => ⟨2, [b0, b1], rfl, rfl⟩

theorem cfgBuild (f : Fields) : Statement (.cfgBuild f) := fun _ => ⟨3, f.bytes, rfl, rfl⟩

theorem cfgCommit (a : Word) : Statement (.cfgCommit a) := fun _ => ⟨4, wordBytes a, rfl, rfl⟩

theorem scale (a : Word) : Statement (.scale a) := fun _ => ⟨5, wordBytes a, rfl, rfl⟩

/-- An opcode byte of a RESERVED row is none of the six commands' and has format N (R303). -/
theorem format_of_reserved (op : Byte) (h : 6 ≤ op.toNat) : formatOf op = .N := by
  have ne (n : Byte) (hn : n.toNat < 6) : op ≠ n := fun e => by rw [e] at h; omega
  unfold formatOf
  rw [if_neg (ne _ (by decide)), if_neg (ne _ (by decide)), if_neg (ne _ (by decide)),
    if_neg (ne _ (by decide)), if_neg (ne _ (by decide))]

theorem one_byte (i : Instr) (op : Byte) (he : encode i = [op]) (h : i.wellFormed = true → 6 ≤ op.toNat) :
    Statement i :=
  fun hw => ⟨op, [], he, by simp [he, format_of_reserved op (h hw), Format.length]⟩

theorem reserved06 (op : Byte) : Statement (.reserved06 op) :=
  one_byte _ op rfl (by revert op; unfold Instr.wellFormed; decide)

theorem reserved08 (op : Byte) : Statement (.reserved08 op) :=
  one_byte _ op rfl (by revert op; unfold Instr.wellFormed; decide)

theorem reserved10 (op : Byte) : Statement (.reserved10 op) :=
  one_byte _ op rfl (by revert op; unfold Instr.wellFormed; decide)

theorem reserved20 (op : Byte) : Statement (.reserved20 op) :=
  one_byte _ op rfl (by revert op; unfold Instr.wellFormed; decide)

theorem reserved40 (op : Byte) : Statement (.reserved40 op) :=
  one_byte _ op rfl (by revert op; unfold Instr.wellFormed; decide)

theorem reserved80 (op : Byte) : Statement (.reserved80 op) :=
  one_byte _ op rfl (by revert op; unfold Instr.wellFormed; decide)

end Sys2Proof.Laws.EncodingShape
end

