-- ==== Sys2Proof/Laws/Safety.lean ====
section
/-! SUPPORT. The host's monitor: what a run, its answers and the view do at one action. -/

namespace Sys2Proof.Machine

@[simp] theorem actAll_nil (s : State) : actAll [] s = .next s := rfl

@[simp] theorem transcript_nil (s : State) : transcript [] s = [] := rfl

@[simp] theorem HostView.afterAll_nil (v : HostView) : v.afterAll [] = some v := rfl

/-- A run goes on where its first action leads. -/
theorem actAll_cons {a : HostAction} {s t : State} (h : actOn a s = .next t) (as : List HostAction) :
    actAll (a :: as) s = actAll as t := by simp only [actAll, h]

/-- The first action of a run is answered with what it adds to the responses. -/
theorem transcript_cons {a : HostAction} {s t : State} (h : actOn a s = .next t)
    (as : List HostAction) : transcript (a :: as) s = (a, answerFrom s t) :: transcript as t := by
  simp only [transcript, h]

/-- A view after a run passes through the view after its first action. -/
theorem HostView.afterAll_cons {v v' : HostView} {a : HostAction} {answer : Option Response}
    {more : List (HostAction × Option Response)} :
    v.afterAll ((a, answer) :: more) = some v' ↔
      ∃ u, v.after answer a = some u ∧ u.afterAll more = some v' := by
  simp only [HostView.afterAll]
  split <;> simp_all

/-- A command that returns a response answers the host with it. -/
@[simp] theorem answerFrom_respond (r : Response) (s : State) : answerFrom s (respond r s) = some r := by
  simp [answerFrom, respond]

/-- No host action changes the parameter (R702). -/
theorem actOn_policy {a : HostAction} {s t : State} (h : actOn a s = .next t) :
    t.policy = s.policy := by
  cases a with
  | command i =>
    rcases exec_cases i s with ⟨_, -, e⟩ | ⟨_, -, e⟩ | ⟨_, -, -, -, e⟩ <;>
      (rw [show actOn (.command i) s = exec i s from rfl, e] at h; cases h)
    all_goals rfl
  | _ => cases h; rfl

/-- Only a SCALE can stop, so every other action leads on (R309). -/
theorem actOn_next_or_scale (a : HostAction) (s : State) :
    (∃ t, actOn a s = .next t) ∨ ∃ w, a = .command (.scale w) := by
  cases a with
  | command i =>
    rcases exec_cases i s with ⟨_, -, e⟩ | ⟨_, -, e⟩ | ⟨w, hi, -⟩
    · exact .inl ⟨_, e⟩
    · exact .inl ⟨_, e⟩
    · exact .inr ⟨w, congrArg _ hi⟩
  | _ => exact .inl ⟨_, rfl⟩

end Sys2Proof.Machine
end

