-- ==== Sys2Proof/Laws/Step.lean ====
section
/-! SUPPORT. What one step can do, said once: every later proof about steps goes through these. -/

namespace Sys2Proof.Machine

/-- Everything a step can answer, by what the host presents next. -/
theorem step_cases (s : State) :
    (takeMove s.input = .idle ∧ step s = .next s) ∨
    (∃ rest, takeMove s.input = .resetEvent rest ∧ step s = .next (resetBlock (setInput rest s))) ∨
    (∃ i rest, takeMove s.input = .command i rest ∧ step s = exec i (setInput rest s)) ∨
    (∃ op, takeMove s.input = .truncated op ∧ step s = .refused (.truncatedCommand op)) := by
  unfold step
  cases h : takeMove s.input with
  | idle => exact .inl ⟨rfl, rfl⟩
  | resetEvent rest => exact .inr (.inl ⟨rest, rfl, rfl⟩)
  | command i rest => exact .inr (.inr (.inl ⟨i, rest, rfl, rfl⟩))
  | truncated op => exact .inr (.inr (.inr ⟨op, rfl, rfl⟩))

/-- Every command the host presents is well formed: the opcode dispatch reads nothing else. -/
theorem takeMove_wellFormed {moves rest : List HostMove} {i : Instr}
    (h : takeMove moves = .command i rest) : i.wellFormed = true := by
  induction moves with
  | nil => simp [takeMove] at h
  | cons m ms ih =>
    cases m with
    | reset => simp [takeMove] at h
    | command c =>
      simp only [takeMove, Presented.command.injEq] at h
      exact h.1 ▸ (toInstr_head c).1
    | stream bs =>
      simp only [takeMove] at h
      split at h
      next j left hd =>
        simp only [Presented.command.injEq] at h
        obtain ⟨rfl, -⟩ := h
        simp only [decode] at hd
        split at hd
        next c l _ =>
          simp only [Except.ok.injEq, Prod.mk.injEq] at hd
          exact hd.1 ▸ (toInstr_head c).1
        next => simp at hd
      next => exact ih h
      next => simp at h

/-! ### Runs of the machine the host reads, one step at a time -/

theorem run_next (M : Host.Core) (k : Nat) {s t : M.State} (h : M.step s = .next t) :
    M.run (k + 1) s = M.run k t := by
  simp only [Host.Core.run, h]

theorem run_fault (M : Host.Core) (k : Nat) {s : M.State} {r : M.Fault} (h : M.step s = .fault r) :
    M.run (k + 1) s = .fault r := by
  simp only [Host.Core.run, h]

theorem run_refused (M : Host.Core) (k : Nat) {s : M.State} {r : M.Refusal}
    (h : M.step s = .refused r) : M.run (k + 1) s = .refused r := by
  simp only [Host.Core.run, h]

theorem core_run_zero (s : State) : Sys2Proof.core.run 0 s = .next s := rfl

theorem core_run_next {s t : State} (k : Nat) (h : step s = .next t) :
    Sys2Proof.core.run (k + 1) s = Sys2Proof.core.run k t :=
  run_next Sys2Proof.core k h

theorem core_run_fault {s : State} {r : Fault} (k : Nat) (h : step s = .fault r) :
    Sys2Proof.core.run (k + 1) s = .fault r :=
  run_fault Sys2Proof.core k h

theorem core_run_refused {s : State} {r : Refusal} (k : Nat) (h : step s = .refused r) :
    Sys2Proof.core.run (k + 1) s = .refused r :=
  run_refused Sys2Proof.core k h

end Sys2Proof.Machine
end

