-- ==== Sys2Proof/Tests/Slice0.lean ====
section
/-! SUPPORT. The model's own tests: expected results are the spec's worked examples and derived vectors
(95_test_vectors.md, cited per section), or hand calculation from its tables. The last part shows, for
each statement with hypotheses, a concrete input that meets them. -/

namespace Sys2Proof.Tests

open Sys2Proof.Machine

/-- The next state of an outcome, so that tests can compare it. -/
def nextOf : Host.Outcome State Fault Refusal → Option State
  | .next s => some s
  | .fault _ => none
  | .refused _ => none

/-- The last response of an outcome. -/
def answerOf (o : Host.Outcome State Fault Refusal) : Option Response :=
  (nextOf o).bind fun s => s.responses.getLast?

/-- `(CFG, CFG_VALID)` after an outcome. -/
def cfgOf (o : Host.Outcome State Fault Refusal) : Option (Option Word × Bool) :=
  (nextOf o).map fun s => (s.cfg, s.cfgValid)

/-- The block after `CFG_COMMIT 0x4282`, the end state of Program 1. -/
def ready : State := { State.reset with cfg := some 0x4282, cfgValid := true }

/-- The block after reset under a policy. -/
def under (p : FieldPolicy) : State := { State.reset with policy := p }

/-- The reference field set with `mux = 9` (section 2.4). -/
def mux9 : Fields := { Fields.reference with mux := 9 }

/-! ### WellFormed: an ill-formed term for each check -/

theorem test_ill_formed_reserved06 : Instr.wellFormed (.reserved06 0x08) = false := by decide
theorem test_ill_formed_reserved08 : Instr.wellFormed (.reserved08 0x07) = false := by decide
theorem test_ill_formed_reserved10 : Instr.wellFormed (.reserved10 0x0F) = false := by decide
theorem test_ill_formed_reserved20 : Instr.wellFormed (.reserved20 0x40) = false := by decide
theorem test_ill_formed_reserved40 : Instr.wellFormed (.reserved40 0xC0) = false := by decide
theorem test_ill_formed_reserved80 : Instr.wellFormed (.reserved80 0x7F) = false := by decide

/-! ### Decoding: words written out from R303 and R311 -/

theorem test_decode_nop : decode [0b00000000] = .ok (.nop, []) := by decide
theorem test_decode_enc16 : decode [0b00000001, 0x12, 0x34] = .ok (.enc16 0x1234, []) := by decide
theorem test_decode_dec16 : decode [0b00000010, 0x12, 0x34] = .ok (.dec16 0x12 0x34, []) := by decide
theorem test_decode_cfg_build :
    decode [0b00000011, 0x00, 0x00, 0x00, 0x04, 0x00, 0x01, 0x00, 0x00, 0x00, 0x04, 0x00, 0x00, 0x00,
      0x00, 0x00, 0x00, 0x00, 0x02] = .ok (.cfgBuild ⟨0, 4, 1, 0, 4, 0, 0, 0, 2⟩, []) := by decide
theorem test_decode_cfg_commit : decode [0b00000100, 0x0E, 0x00] = .ok (.cfgCommit 0x0E00, []) := by
  decide
theorem test_decode_scale : decode [0b00000101, 0x10, 0x00] = .ok (.scale 0x1000, []) := by decide
theorem test_decode_reserved06 : decode [0b00000111] = .ok (.reserved06 0x07, []) := by decide
theorem test_decode_reserved08 : decode [0b00001000] = .ok (.reserved08 0x08, []) := by decide
theorem test_decode_reserved10 : decode [0b00010101] = .ok (.reserved10 0x15, []) := by decide
theorem test_decode_reserved20 : decode [0b00111111] = .ok (.reserved20 0x3F, []) := by decide
theorem test_decode_reserved40 : decode [0b01111111] = .ok (.reserved40 0x7F, []) := by decide
theorem test_decode_reserved80 : decode [0b10000000] = .ok (.reserved80 0x80, []) := by decide

theorem test_decode_truncated_word : decode [0x04, 0x42] = .error (.truncated 0x04) := by decide
theorem test_decode_empty : decode [] = .error .emptyStream := by decide

/-- The opcode table numbers bits from the first byte: `05 10 00` is 0x001005. -/
theorem test_table_word_scale : decodeTableWord 24 0x001005 = some (.scale 0x1000) := by decide

/-- A table word that gives the operands no bits stands for operand bytes of zeros. -/
theorem test_table_word_short : decodeTableWord 8 0x03 = some (.cfgBuild Fields.zero) := by decide

/-! ### Register Codec (95_test_vectors.md 2.1, 2.2) -/

theorem test_enc16_4282 :
    answerOf (exec (.enc16 0x4282) State.reset) = some ⟨.ok, 0, .bytes 0x42 0x82⟩ := by decide
theorem test_dec16_12_34 :
    answerOf (exec (.dec16 0x12 0x34) State.reset) = some ⟨.ok, 0, .word 0x1234⟩ := by decide

/-! ### Configuration Word Assembler (2.3, 2.4, 2.5) -/

theorem test_cfg_build_reference :
    answerOf (exec (.cfgBuild Fields.reference) State.reset) = some ⟨.ok, 0, .word 0x4282⟩ := by decide
theorem test_or_word_gain_ffff : orWord { Fields.reference with gain := 0xFFFF } = 0xFE82 := by decide
theorem test_mask_word_gain_ffff : maskWord { Fields.reference with gain := 0xFFFF } = 0x4E82 := by
  decide
theorem test_cfg_build_rejects_lowest_index :
    answerOf (exec (.cfgBuild { Fields.reference with mux := 8, compQue := 4 }) (under .reject)) =
      some ⟨.fieldRange, 1, .none⟩ := by decide
theorem test_cfg_commit_f1ff :
    cfgOf (exec (.cfgCommit 0xF1FF) State.reset) = some (some 0xF1FF, true) := by decide

/-! ### Sample Scaler (2.6) -/

theorem test_scale_8000 :
    answerOf (exec (.scale 0x8000) ready) = some ⟨.ok, 0, .scaled 0xF8000000⟩ := by decide
theorem test_scale_before_commit :
    answerOf (exec (.scale 0x1000) State.reset) = some ⟨.noCfg, 0, .none⟩ := by decide
theorem test_scale_result_at_maximum_fsr : scaleResult 65535 0x8000 = 0x80008000 := by decide

/-! ### NOP and reserved opcodes (2.7) -/

theorem test_nop : answerOf (exec .nop State.reset) = some ⟨.ok, 0, .none⟩ := by decide
theorem test_reserved06 :
    answerOf (exec (.reserved06 0x06) ready) = some ⟨.illegalOp, 0x06, .none⟩ := by decide
theorem test_reserved08 :
    answerOf (exec (.reserved08 0x0F) ready) = some ⟨.illegalOp, 0x0F, .none⟩ := by decide
theorem test_reserved10 :
    answerOf (exec (.reserved10 0x10) ready) = some ⟨.illegalOp, 0x10, .none⟩ := by decide
theorem test_reserved20 :
    answerOf (exec (.reserved20 0x20) ready) = some ⟨.illegalOp, 0x20, .none⟩ := by decide
theorem test_reserved40 :
    answerOf (exec (.reserved40 0x7F) ready) = some ⟨.illegalOp, 0x7F, .none⟩ := by decide
theorem test_reserved80 :
    answerOf (exec (.reserved80 0xFF) ready) = some ⟨.illegalOp, 0xFF, .none⟩ := by decide

/-! ### Steps -/

theorem test_step_runs_table_word :
    cfgOf (step (State.reset.withFetchWord 24 0x824204)) = some (some 0x4282, true) := by decide
theorem test_step_reset_event :
    cfgOf (step { ready with input := [.reset] }) = some (none, false) := by decide
theorem test_step_leaves_rest_of_stream :
    (nextOf (step { ready with input := [.stream [0x00, 0x06]] })).map State.input =
      some [.stream [0x06]] := by decide

/-! ### Assembly (R310) -/

theorem test_assemble_lines :
    Assembler.assemble "NOP ; nothing\nDEC16 0x10, 0\nSCALE 4096".toList =
      .ok [0x00, 0x02, 0x10, 0x00, 0x05, 0x10, 0x00] := by decide
theorem test_assemble_named_fields :
    Assembler.line
      ("CFG_BUILD status=0, mux=4, gain=1, mode=0, rate=4, comp_mode=0, comp_pol=0, comp_lat=0, " ++
        "comp_que=2").toList = .ok (encode (.cfgBuild Fields.reference)) := by decide
theorem test_assemble_too_wide :
    Assembler.line "DEC16 256, 0".toList = .error .operandTooWide := by decide
theorem test_assemble_wrong_name :
    Assembler.line "CFG_BUILD mux=0, status=4, gain=1, mode=0, rate=4, comp_mode=0, comp_pol=0, comp_lat=0, comp_que=2".toList =
      .error .wrongName := by decide

/-! ### Witnesses: inputs that meet the hypotheses of the statements -/

/-- `ReservedOpcodesAnswerIllegalOp`, at both ends of the range. -/
theorem witness_reserved_opcode :
    0x06 ≤ (Command.mk 0x06 0 0 0 Fields.zero).op.toNat ∧ 0x06 ≤ (0xFF : Byte).toNat := by decide

/-- `Dec16WordIsSum`, `ReadRegisterPhases`. -/
theorem witness_dec16_answer :
    exec (.dec16 0x10 0x02) ready = .next { ready with responses := [⟨.ok, 0, .word 0x1002⟩] } := rfl

/-- The assembly clauses: operand texts that are numbers of 8 and of 16 bits, and nine of them. -/
theorem witness_operand_texts : Assembler.operand 8 ['0', 'x', '8', '0'] = .ok 0x80 ∧
    0x06 ≤ (0x80 : Byte).toNat ∧ Assembler.operand 16 [' ', '1', '7', '0', '2', '6'] = .ok 0x4282 ∧
    Assembler.fieldOperands (List.replicate 9 ['0']) = .ok Fields.zero := by decide

/-- `RegisterWriteSendsEnc16Bytes`. -/
theorem witness_enc16_answer :
    exec (.enc16 0x4282) ready = .next { ready with responses := [⟨.ok, 0, .bytes 0x42 0x82⟩] } := rfl

/-- `CfgBuildAnswersByPolicy` under OR_UNMASKED and MASK, `MaskedFieldsReadBackReduced`,
`UnmaskedWordIsMaskedWordPlusSpill`, `SuccessivePackingEqualsPositional`, `ReferenceFieldsBuild4282`. -/
theorem witness_policies : (under .orUnmasked).policy = .orUnmasked ∧ (under .mask).policy = .mask ∧
    under .mask = { under .orUnmasked with policy := .mask } := ⟨rfl, rfl, rfl⟩

/-- `CfgBuildAnswersByPolicy` under REJECT with every value in range, at the largest values that fit;
`InRangeFieldsReadBackUnderEveryPolicy`. -/
theorem witness_fields_in_range : (under .reject).policy = .reject ∧
    ∀ k : Field, ((⟨1, 7, 7, 1, 7, 1, 1, 1, 3⟩ : Fields).get k).toNat < 2 ^ k.width :=
  ⟨rfl, fun k => by cases k <;> decide⟩

/-- `CfgBuildAnswersByPolicy` under REJECT, the smallest oversized value and none before it. -/
theorem witness_lowest_oversized : (under .reject).policy = .reject ∧
    2 ^ Field.mux.width ≤ (({ Fields.reference with mux := 8 } : Fields).get .mux).toNat ∧
    ∀ j : Field, j.index < Field.mux.index →
      (({ Fields.reference with mux := 8 } : Fields).get j).toNat < 2 ^ j.width :=
  ⟨rfl, by decide, fun j => by cases j <;> decide⟩

/-- `FieldRangeOnlyUnderRejectAtLowestIndex`, its second part; `ScaleBeforeCommitAnswersNoCfg`, its
second part; `CommandFrame`, with a command that is no commit. -/
theorem witness_other_command : (∀ f : Fields, Instr.nop ≠ .cfgBuild f) ∧
    (∀ a : Word, Instr.nop ≠ .scale a) ∧ (∀ a : Word, Instr.nop ≠ .cfgCommit a) ∧
    exec .nop ready = .next { ready with responses := [⟨.ok, 0, .none⟩] } := ⟨nofun, nofun, nofun, rfl⟩

/-- `UnmaskedFieldSpillsOnlyUpward`. -/
theorem witness_spill : (under .orUnmasked).policy = .orUnmasked ∧
    answerOf (exec (.cfgBuild Fields.reference) (under .orUnmasked)) = some ⟨.ok, 0, .word 0x4282⟩ ∧
    answerOf (exec (.cfgBuild (Fields.reference.set .mux 9)) (under .orUnmasked)) =
      some ⟨.ok, 0, .word 0x9282⟩ ∧ 11 < Field.mux.shift := by decide

/-- `FieldsPartitionTheWord`. -/
theorem witness_two_fields : Field.mux ≠ Field.gain := by decide

/-- `CfgCommitLatchesWord`: two commits in a row, the second of the same word. -/
theorem witness_commits : cfgOf (exec (.cfgCommit 0x0800) ready) = some (some 0x0800, true) ∧
    cfgOf (exec (.cfgCommit 0x0800) { ready with cfg := some 0x0800 }) = some (some 0x0800, true) := by
  decide

/-- `ScaleReturnsExactProduct`, `ScaledResultMeansVoltage`, `GainOneResultIsShiftedSample`;
`ScaleBeforeCommitAnswersNoCfg` with `CFG_VALID = 1`. -/
theorem witness_committed : ready.cfgValid = true ∧ ready.cfg = some 0x4282 ∧ fieldOf .gain 0x4282 = 1 ∧
    answerOf (exec (.scale 0x1000) ready) = some ⟨.ok, 0, .scaled 16777216⟩ := by decide

/-- `ScaleReturnsExactProduct`, `ScaleBeforeCommitAnswersNoCfg`: no committed word. -/
theorem witness_not_committed : State.reset.cfgValid = false := rfl

/-- `ScalerLaws`: a full-scale range above 0, two samples in order, and codes that are not the extremes. -/
theorem witness_scaler_laws : 0 < ((fsrMilliVolts (gainOf 0x4282)).toNat : Int) ∧
    signed 0x8000 < signed 0x7FFF ∧ (0x7FFF : Word) ≠ 0x8000 ∧ (0x8000 : Word) ≠ 0x7FFF := by decide

/-- `ErrorLeavesStateUnchanged`, `StatusesOfEachCommand` on a reserved opcode. -/
theorem witness_error : exec (Command.mk 0x06 0 0 0 Fields.zero).toInstr ready =
      .next { ready with responses := [⟨.illegalOp, 0x06, .none⟩] } ∧ Status.illegalOp ≠ .ok ∧
    0x06 ≤ (Command.mk 0x06 0 0 0 Fields.zero).op.toNat := ⟨rfl, by decide, by decide⟩

/-- `StatusesOfEachCommand` on each of its other opcode bytes. -/
theorem witness_statuses :
    answerOf (exec (Command.mk 0x04 1 0 0 Fields.zero).toInstr ready) = some ⟨.ok, 0, .none⟩ ∧
    answerOf (exec (Command.mk 0x03 0 0 0 mux9).toInstr (under .reject)) = some ⟨.fieldRange, 1, .none⟩ ∧
    answerOf (exec (Command.mk 0x05 0 0 0 Fields.zero).toInstr State.reset) =
      some ⟨.noCfg, 0, .none⟩ := by decide

/-- `OneResponsePerCommand`, `DecodeOfEncodeIsIdentity`. -/
theorem witness_well_formed : Instr.wellFormed (.reserved06 0x07) = true ∧
    exec (.reserved06 0x07) ready = .next { ready with responses := [⟨.illegalOp, 0x07, .none⟩] } :=
  ⟨rfl, rfl⟩

/-- `EveryRecordCompletes`, `StepKeepsInv`, `RunsNeverFault`: a good state, with a response already
returned, that takes a step. -/
theorem witness_inv : Inv { ready with input := [.reset], responses := [⟨.ok, 0, .none⟩] } ∧
    cfgOf (step { ready with input := [.reset], responses := [⟨.ok, 0, .none⟩] }) = some (none, false) :=
  ⟨⟨rfl, by decide⟩, by decide⟩

/-- `OnlyCommitAndResetWriteCfg`: a step of each of its three kinds. -/
theorem witness_step_kinds : cfgOf (step ready) = some (some 0x4282, true) ∧
    cfgOf (step { ready with input := [.reset] }) = some (none, false) ∧
    cfgOf (step { ready with input := [.command ⟨0x04, 0x0800, 0, 0, Fields.zero⟩] }) =
      some (some 0x0800, true) := by decide

/-- `ResetEventClearsValid`, `IdleStepChangesNothing`. -/
theorem witness_inputs : ({ ready with input := [.reset] } : State).input = .reset :: [] ∧
    State.reset.input = [] := ⟨rfl, rfl⟩

/-- `StepRunsTheDecodedCommand`: a stream with bytes left, one without, and a record;
`DecodedBytesAreTheEncoding`. -/
theorem witness_presented : decode [0x00, 0x06] = .ok (.nop, [0x06]) ∧ decode [0x06] = .ok (.reserved06 0x06, []) ∧
    ({ ready with input := [.command ⟨0x00, 0, 0, 0, Fields.zero⟩] } : State).input =
      .command ⟨0x00, 0, 0, 0, Fields.zero⟩ :: [] := ⟨rfl, rfl, rfl⟩

/-- `TruncatedStreamIsRefused`: one byte short, in each format with operands. -/
theorem witness_truncated : [(0x05 : Byte), 0x10].length < (formatOf 0x05).length ∧
    [(0x02 : Byte), 0x10].length < (formatOf 0x02).length ∧
    (0x03 :: List.replicate 17 (0 : Byte)).length < (formatOf 0x03).length := by decide

/-- `UnreadOperandsAffectNothing`: an ENC16 whose unread fields differ. -/
theorem witness_unread : (Command.mk 0x01 5 6 7 mux9).op = (Command.mk 0x01 5 0 0 Fields.zero).op ∧
    (Command.mk 0x01 5 6 7 mux9).a = (Command.mk 0x01 5 0 0 Fields.zero).a ∧ formatOf 0x01 = .W := by
  decide

/-- `HostSeesOnlyTheGainOfCfg`: two words with one gain field, and two contents before any commit. -/
theorem witness_same_to_host : SameToHost ready { ready with cfg := some 0xF3FF } ∧
    SameToHost State.reset { State.reset with cfg := some 0xFFFF } :=
  ⟨⟨rfl, fun _ => rfl, rfl, rfl, rfl⟩, ⟨rfl, nofun, rfl, rfl, rfl⟩⟩

/-- `StreamRunsInOrder`. -/
theorem witness_stream : [Instr.cfgCommit 0x0200, .scale 1] ≠ [] ∧
    (∀ i ∈ [Instr.cfgCommit 0x0200, .scale 1], i.wellFormed = true) ∧
    Inv { State.reset with input := [.stream (encodeAll [.cfgCommit 0x0200, .scale 1])] } :=
  ⟨by decide, by decide, rfl, by decide⟩

/-- `CommitVisibleToNextScale`. -/
theorem witness_commit_then_scale :
    ({ State.reset with input := [.command ⟨0x04, 0x4282, 0, 0, Fields.zero⟩,
      .command ⟨0x05, 0x1000, 0, 0, Fields.zero⟩] } : State).input =
    .command ⟨0x04, 0x4282, 0, 0, Fields.zero⟩ :: .command ⟨0x05, 0x1000, 0, 0, Fields.zero⟩ :: [] := rfl

/-- The reference host's actions from reset to its first sample (R711, Programs 1 and 2). -/
def referenceActions : List HostAction :=
  [.command (.cfgBuild Fields.reference), .command (.enc16 0x4282), .configWrite 0x4282 true,
    .command (.cfgCommit 0x4282), .conversionRead (some (0x10, 0x00)), .command (.dec16 0x10 0x00)]

/-- What that host has then seen: a sample decoded and not yet scaled. -/
def referenceView : HostView :=
  ⟨.running, some 0x4282, some 0x4282, true, some (0x10, 0x00), some 0x1000, false⟩

/-- The host after reset and the block are in step. -/
theorem witness_start_in_step : InStep HostView.start State.reset := ⟨nofun, nofun⟩

/-- `DutifulHostNeverMeetsNoCfg`, through a SCALE and a failed read. -/
theorem witness_dutiful_host :
    HostView.start.afterAll
      (transcript (referenceActions ++ [.command (.scale 0x1000), .conversionRead none]) State.reset) =
    some ⟨.running, some 0x4282, some 0x4282, true, none, none, false⟩ := by decide

/-- `DutifulScaleConvertsTheReading`: the hypotheses, and the SCALE allowed next. -/
theorem witness_dutiful_scale :
    HostView.start.afterAll (transcript referenceActions State.reset) = some referenceView ∧
    cfgOf (actAll referenceActions State.reset) = some (some 0x4282, true) ∧
    (referenceView.after none (.command (.scale 0x1000))).isSome = true := by decide

/-- `BreachesOfTheHostDuties`: each clause's hypothesis, the last one's with a read that fails. -/
theorem witness_breaches : HostView.start.built ≠ some 0x4282 ∧ referenceView.written ≠ some 0x9282 ∧
    referenceView.committed = true ∧
    (HostView.mk .disabled none none false none none false).phase = .disabled ∧
    referenceView.read ≠ some (0x00, 0x10) ∧ referenceView.decoded ≠ some 0x0010 ∧
    (({ referenceView with scaled := true } : HostView).after none (.conversionRead none)).isSome = true := by
  decide

/-- A host that writes a word it did not build breaks its duty (R711 (b)). -/
theorem test_duty_write_unbuilt : HostView.start.afterAll
    (transcript [.command (.cfgBuild Fields.reference), .configWrite 0x9282 true] State.reset) = none := by
  decide

/-- A host that commits a word before its write succeeded breaks its duty (R711 (c)). -/
theorem test_duty_commit_unwritten : HostView.start.afterAll
    (transcript [.command (.cfgBuild Fields.reference), .command (.cfgCommit 0x4282)] State.reset) = none := by
  decide

/-- A host that scales a value it never read breaks its duty (R711 (e), D25). -/
theorem test_duty_scale_unread : HostView.start.afterAll
    (transcript (referenceActions ++ [.command (.scale 0x1001)]) State.reset) = none := by decide

/-- `DataReadReturnsLastPointerSet`. -/
theorem witness_pointer_set : ∀ x ∈ [External.Transaction.dataRead], ∀ r, x ≠ .pointerSet r := by
  intro x hx r
  simp only [List.mem_singleton] at hx
  subst hx
  nofun

end Sys2Proof.Tests
end

section
/-! SUPPORT. What DEC16 answers, and what a register read attempts and returns, case by case of its
phases' outcomes (R213, R215, R405, R406). -/

namespace Sys2Proof.Machine

/-- DEC16 always answers, with the decoded word and nothing else (R405, R412). -/
theorem exec_dec16 (b0 b1 : Byte) (s : State) :
    exec (.dec16 b0 b1) s = .next (respond ⟨.ok, 0, .word (decode16 b0 b1)⟩ s) := rfl

/-- The word DEC16 is seen to answer is determined by its two bytes (R308). -/
theorem word_eq_decode16_of_exec_dec16 {b0 b1 : Byte} {w : Word} {s t : State}
    (hexec : exec (.dec16 b0 b1) s = .next t)
    (hanswer : t.responses = s.responses ++ [⟨.ok, 0, .word w⟩]) : w = decode16 b0 b1 := by
  rw [exec_dec16] at hexec
  obtain rfl : respond ⟨.ok, 0, .word (decode16 b0 b1)⟩ s = t := Host.Outcome.next.inj hexec
  have hlast : [(⟨.ok, 0, .word (decode16 b0 b1)⟩ : Response)] = [⟨.ok, 0, .word w⟩] :=
    List.append_cancel_left hanswer
  cases hlast
  rfl

end Sys2Proof.Machine

namespace Sys2Proof.External

@[simp] theorem readTransactions_error (reg : DeviceRegister) (raw : BusStatus) :
    readTransactions reg (.error raw) = [.pointerSet reg] := rfl

@[simp] theorem readTransactions_ok (reg : DeviceRegister) :
    readTransactions reg (.ok ()) = [.pointerSet reg, .dataRead] := rfl

@[simp] theorem readRegister_pointerSet_error (raw : BusStatus)
    (phaseB : Except BusStatus (Byte × Byte)) :
    readRegister (.error raw) phaseB = .error (.busFailure raw) := rfl

@[simp] theorem readRegister_dataRead_error (raw : BusStatus) :
    readRegister (.ok ()) (.error raw) = .error (.busFailure raw) := rfl

@[simp] theorem readRegister_ok (b0 b1 : Byte) :
    readRegister (.ok ()) (.ok (b0, b1)) = .ok (decode16 b0 b1) := rfl

end Sys2Proof.External

namespace Sys2Proof.Proofs

open Sys2Proof.Machine Sys2Proof.External

/-- Settles O47, by the outcomes of the two phases: a failing phase ends the read with its raw status,
and after two successes the word is the one DEC16 answers. -/
theorem readRegisterPhases : Obligations.ReadRegisterPhases := by
  refine ⟨fun reg raw phaseB => ?pointerSetFails, fun reg raw => ?dataReadFails,
    fun b0 b1 w s t hexec hanswer => ?bothSucceed⟩
  case pointerSetFails =>
    exact ⟨readTransactions_error reg raw, readRegister_pointerSet_error raw phaseB⟩
  case dataReadFails => exact ⟨readTransactions_ok reg, readRegister_dataRead_error raw⟩
  case bothSucceed => rw [readRegister_ok, word_eq_decode16_of_exec_dec16 hexec hanswer]

end Sys2Proof.Proofs
end

section
/-! SUPPORT. How a command ends: with `succeed`, or with `raise` on the state it was given (R306, R307). -/

namespace Sys2Proof.Machine

/-- The one response that `respond` adds is the one the host finds last. -/
theorem respond_responses_eq_iff {q r : Response} {s u : State} (hu : u.responses = s.responses) :
    (respond q u).responses = s.responses ++ [r] ↔ q = r := by
  simp [hu]

/-- A command ends with status `OK`, after at most a write that keeps the earlier responses; or it raises
an error on the state it was given; or it faults. -/
theorem exec_succeed_or_raise (i : Instr) (s : State) :
    (∃ x u, u.responses = s.responses ∧ exec i s = .next (respond ⟨.ok, 0, x⟩ u)) ∨
    (∃ e info, exec i s = .next (respond ⟨e, info, .none⟩ s)) ∨
    exec i s = .fault .cfgHoldsNoValue := by
  cases i with
  | nop | enc16 | dec16 => exact .inl ⟨_, s, rfl, rfl⟩
  | cfgCommit a => exact .inl ⟨_, latchCfg a s, latchCfg_responses a s, rfl⟩
  | cfgBuild f =>
    rcases execCfgBuild_cases f s with ⟨-, h⟩ | ⟨-, h⟩ | ⟨-, -, h⟩ | ⟨k, -, -, h⟩
    · exact .inl ⟨_, s, rfl, h⟩
    · exact .inl ⟨_, s, rfl, h⟩
    · exact .inl ⟨_, s, rfl, h⟩
    · exact .inr (.inl ⟨_, _, h⟩)
  | scale a =>
    rcases execScale_cases a s with ⟨-, h⟩ | ⟨w, -, -, h⟩ | ⟨-, -, h⟩
    · exact .inr (.inl ⟨_, _, h⟩)
    · exact .inl ⟨_, s, rfl, h⟩
    · exact .inr (.inr h)
  | reserved06 | reserved08 | reserved10 | reserved20 | reserved40 | reserved80 =>
    exact .inr (.inl ⟨_, _, rfl⟩)

end Sys2Proof.Machine

namespace Sys2Proof.Proofs

open Sys2Proof.Machine

/-- Settles O25, by how the command ends: an error status rules out `succeed`, and `raise` adds its one
response to the state it was given. -/
theorem errorLeavesStateUnchanged : Obligations.ErrorLeavesStateUnchanged := by
  intro i s t r hexec hanswer herror
  rcases exec_succeed_or_raise i s with ⟨x, u, hu, h⟩ | ⟨e, info, h⟩ | h
  · obtain rfl : respond ⟨.ok, 0, x⟩ u = t := Host.Outcome.next.inj (h.symm.trans hexec)
    obtain rfl := (respond_responses_eq_iff hu).mp hanswer
    exact absurd rfl herror
  · obtain rfl : respond ⟨e, info, .none⟩ s = t := Host.Outcome.next.inj (h.symm.trans hexec)
    obtain rfl := (respond_responses_eq_iff rfl).mp hanswer
    exact ⟨rfl, rfl⟩
  · exact nomatch h.symm.trans hexec

end Sys2Proof.Proofs
end

section
/-! SUPPORT. What ENC16 answers, how the two codec mnemonics assemble, and that the two bytes ENC16
answers decode to its operand (R310, R400, R405, R410). -/

namespace Sys2Proof

/-- Decoding the two bytes of a word gives the word back (R410). -/
@[simp] theorem decode16_encode16 (v : Word) : decode16 (encode16 v).1 (encode16 v).2 = v :=
  joinBytes_highByte_lowByte v

end Sys2Proof

namespace Sys2Proof.Machine

/-- ENC16 always answers, with the two bytes of its operand and nothing else (R400, R412). -/
theorem exec_enc16 (a : Word) (s : State) :
    exec (.enc16 a) s = .next (respond ⟨.ok, 0, .bytes (encode16 a).1 (encode16 a).2⟩ s) := rfl

end Sys2Proof.Machine

namespace Sys2Proof.Assembler

@[simp] theorem wordOperand_singleton (text : List Char) : wordOperand [text] = operand 16 text := rfl

theorem pairOperands_of_operand {t0 t1 : List Char} {b0 b1 : Byte} (h0 : operand 8 t0 = .ok b0)
    (h1 : operand 8 t1 = .ok b1) : pairOperands [t0, t1] = .ok (b0, b1) := by
  simp only [pairOperands, h0, h1]
  rfl

/-- An ENC16 line whose operand text reads as a word assembles to the stream of that ENC16 (R310). -/
theorem command_enc16_of_operand {text : List Char} {a : Word} (h : operand 16 text = .ok a) :
    command ['E', 'N', 'C', '1', '6'] [text] = .ok (encode (.enc16 a)) := by
  simp only [command, wordOperand_singleton, h]
  rfl

/-- A DEC16 line whose operand texts read as bytes assembles to the stream of that DEC16 (R310). -/
theorem command_dec16_of_operand {t0 t1 : List Char} {b0 b1 : Byte} (h0 : operand 8 t0 = .ok b0)
    (h1 : operand 8 t1 = .ok b1) :
    command ['D', 'E', 'C', '1', '6'] [t0, t1] = .ok (encode (.dec16 b0 b1)) := by
  simp only [command, pairOperands_of_operand h0 h1]
  rfl

end Sys2Proof.Assembler

namespace Sys2Proof.Proofs

open Sys2Proof.Machine Sys2Proof.Assembler

/-- Settles O7: both commands always answer, and the bytes ENC16 answers decode to its operand. -/
theorem dec16OfEnc16IsIdentity : Obligations.Dec16OfEnc16IsIdentity := by
  intro v s
  have hdec (t : State) : exec (.dec16 (encode16 v).1 (encode16 v).2) t =
      .next (respond ⟨.ok, 0, .word v⟩ t) := by
    rw [exec_dec16, decode16_encode16]
  exact ⟨_, _, _, _, exec_enc16 v s, rfl, hdec _, rfl⟩

/-- Settles O4, part by part: the answer, the stream, the assembly, and the spec's own line. -/
theorem enc16ReturnsHighByteFirst : Obligations.Enc16ReturnsHighByteFirst := by
  refine ⟨exec_enc16, fun a => ?stream, fun _ _ => command_enc16_of_operand, ?line⟩
  case stream => rfl
  case line => decide

/-- Settles O5, part by part: the answer, the stream, the assembly, and the spec's own line. -/
theorem dec16ReturnsFirstByteHigh : Obligations.Dec16ReturnsFirstByteHigh := by
  refine ⟨exec_dec16, fun b0 b1 => ?stream, fun _ _ _ _ => command_dec16_of_operand, ?line⟩
  case stream => rfl
  case line => decide

end Sys2Proof.Proofs
end

section
/-! SUPPORT. The word CFG_BUILD assembles written out over the layout, its lowest oversized sub-field,
what it answers under each policy, and how its mnemonic assembles (R310, R422, R425 to R428). -/

namespace Sys2Proof

/-- `OR_{i=0..8} g(i)`, term by term in field order (R21). -/
theorem orFields_eq (g : Field → Nat) :
    orFields g = g .status ||| g .mux ||| g .gain ||| g .mode ||| g .rate ||| g .compMode |||
      g .compPol ||| g .compLat ||| g .compQue := by
  simp [orFields, Field.all]

/-- The word of OR_UNMASKED, with the layout of R422 written out (R426). -/
theorem orWord_eq (f : Fields) :
    orWord f = BitVec.ofNat 16 (f.status.toNat <<< 15 ||| f.mux.toNat <<< 12 ||| f.gain.toNat <<< 9 |||
      f.mode.toNat <<< 8 ||| f.rate.toNat <<< 5 ||| f.compMode.toNat <<< 4 ||| f.compPol.toNat <<< 3 |||
      f.compLat.toNat <<< 2 ||| f.compQue.toNat <<< 0) :=
  congrArg (BitVec.ofNat 16) (orFields_eq _)

/-- Cutting the OR to 16 bits first gives the same word (R424). -/
theorem ofNat_shifted_mod (f : Fields) : BitVec.ofNat 16 (f.shifted % 2 ^ 16) = orWord f := by
  apply BitVec.eq_of_toNat_eq
  simp [orWord]

/-- The word of MASK, with the layout of R422 written out (R427). -/
theorem maskWord_eq (f : Fields) :
    maskWord f = BitVec.ofNat 16 ((f.status.toNat % 2) <<< 15 ||| (f.mux.toNat % 8) <<< 12 |||
      (f.gain.toNat % 8) <<< 9 ||| (f.mode.toNat % 2) <<< 8 ||| (f.rate.toNat % 8) <<< 5 |||
      (f.compMode.toNat % 2) <<< 4 ||| (f.compPol.toNat % 2) <<< 3 ||| (f.compLat.toNat % 2) <<< 2 |||
      (f.compQue.toNat % 4) <<< 0) :=
  congrArg (BitVec.ofNat 16) (orFields_eq _)

/-- A sub-field's index is its place in field order (R110). -/
theorem Field.all_getElem?_index (k : Field) : Field.all[k.index]? = some k := by cases k <;> rfl

/-- No two sub-fields share an index (R110). -/
theorem Field.index_injective : Function.Injective Field.index := fun j k h =>
  Option.some.inj (by rw [← j.all_getElem?_index, h, k.all_getElem?_index])

theorem Field.index_lt (k : Field) : k.index < 9 := by cases k <;> decide

/-- A sub-field's index fits the `info` byte (R306, R428). -/
theorem Field.ofNat_index_toNat (k : Field) : (BitVec.ofNat 8 k.index).toNat = k.index := by
  have hk := k.index_lt
  rw [BitVec.toNat_ofNat]
  omega

/-- An oversized sub-field with none of lower index is the one `firstOversized` gives (R428): the one it
gives cannot lie above it, nor below it. -/
theorem firstOversized_eq_some {f : Fields} {k : Field} (hk : 2 ^ k.width ≤ (f.get k).toNat)
    (hlow : ∀ j : Field, j.index < k.index → (f.get j).toNat < 2 ^ j.width) :
    f.firstOversized = some k := by
  cases hf : f.firstOversized with
  | none => exact absurd ((firstOversized_none f).mp hf k) (Nat.not_lt.mpr hk)
  | some j =>
    obtain ⟨hj, hlowj⟩ := firstOversized_some hf
    have hkj : ¬ k.index < j.index := fun h => Nat.not_lt.mpr hk (hlowj k h)
    have hjk : ¬ j.index < k.index := fun h => Nat.not_lt.mpr hj (hlow j h)
    rw [Field.index_injective (show j.index = k.index by omega)]

end Sys2Proof

namespace Sys2Proof.Machine

section
variable {f : Fields} {s : State}

/-- CFG_BUILD under OR_UNMASKED (R426). -/
theorem exec_cfgBuild_orUnmasked (hp : s.policy = .orUnmasked) :
    exec (.cfgBuild f) s = .next (respond ⟨.ok, 0, .word (orWord f)⟩ s) := by
  simp only [exec, execCfgBuild, hp, succeed_eq]

/-- CFG_BUILD under MASK (R427). -/
theorem exec_cfgBuild_mask (hp : s.policy = .mask) :
    exec (.cfgBuild f) s = .next (respond ⟨.ok, 0, .word (maskWord f)⟩ s) := by
  simp only [exec, execCfgBuild, hp, succeed_eq]

/-- CFG_BUILD under REJECT, every value in range (R428). -/
theorem exec_cfgBuild_reject_fits (hp : s.policy = .reject) (hf : f.firstOversized = none) :
    exec (.cfgBuild f) s = .next (respond ⟨.ok, 0, .word (orWord f)⟩ s) := by
  simp only [exec, execCfgBuild, hp, hf, succeed_eq]

/-- CFG_BUILD under REJECT, some value oversized (R428). -/
theorem exec_cfgBuild_reject_oversized {k : Field} (hp : s.policy = .reject)
    (hf : f.firstOversized = some k) :
    exec (.cfgBuild f) s = .next (respond ⟨.fieldRange, BitVec.ofNat 8 k.index, .none⟩ s) := by
  simp only [exec, execCfgBuild, hp, hf, raise_eq]

end

/-- A command other than CFG_BUILD answers a status other than `E_FIELD_RANGE`, after at most a write
that keeps the earlier responses; or it faults (R428, R603). -/
theorem exec_status_of_ne_cfgBuild (i : Instr) (s : State) (hi : ∀ f, i ≠ .cfgBuild f) :
    (∃ q u, q.status ≠ .fieldRange ∧ u.responses = s.responses ∧ exec i s = .next (respond q u)) ∨
    exec i s = .fault .cfgHoldsNoValue := by
  cases i with
  | cfgBuild f => exact absurd rfl (hi f)
  | nop | enc16 | dec16 => exact .inl ⟨⟨.ok, _, _⟩, s, nofun, rfl, rfl⟩
  | cfgCommit a => exact .inl ⟨⟨.ok, _, _⟩, latchCfg a s, nofun, latchCfg_responses a s, rfl⟩
  | scale a =>
    rcases execScale_cases a s with ⟨-, h⟩ | ⟨w, -, -, h⟩ | ⟨-, -, h⟩
    · exact .inl ⟨⟨.noCfg, _, _⟩, s, nofun, rfl, h⟩
    · exact .inl ⟨⟨.ok, _, _⟩, s, nofun, rfl, h⟩
    · exact .inr h
  | reserved06 | reserved08 | reserved10 | reserved20 | reserved40 | reserved80 =>
    exact .inl ⟨⟨.illegalOp, _, _⟩, s, nofun, rfl, rfl⟩

/-- Only CFG_BUILD answers `E_FIELD_RANGE` (R428, R603). -/
theorem status_ne_fieldRange_of_ne_cfgBuild {i : Instr} {s t : State} {r : Response}
    (hi : ∀ f, i ≠ .cfgBuild f) (hexec : exec i s = .next t)
    (hanswer : t.responses = s.responses ++ [r]) : r.status ≠ .fieldRange := by
  rcases exec_status_of_ne_cfgBuild i s hi with ⟨q, u, hq, hu, h⟩ | h
  · obtain rfl : respond q u = t := Host.Outcome.next.inj (h.symm.trans hexec)
    obtain rfl := (respond_responses_eq_iff hu).mp hanswer
    exact hq
  · exact nomatch h.symm.trans hexec

end Sys2Proof.Machine

namespace Sys2Proof.Assembler

/-- A CFG_BUILD line whose operand texts read as nine values assembles to the stream of that CFG_BUILD
(R310). -/
theorem command_cfgBuild_of_fieldOperands {texts : List (List Char)} {f : Fields}
    (h : fieldOperands texts = .ok f) :
    command ['C', 'F', 'G', '_', 'B', 'U', 'I', 'L', 'D'] texts = .ok (encode (.cfgBuild f)) := by
  simp only [command, h]
  rfl

end Sys2Proof.Assembler

namespace Sys2Proof.Proofs

open Sys2Proof.Machine Sys2Proof.Assembler

/-- Settles O9: the answer under each policy, with the word's layout written out, then the stream, the
assembly, and the rule's example. -/
theorem cfgBuildAnswersByPolicy : Obligations.CfgBuildAnswersByPolicy := by
  refine ⟨fun f s => ⟨fun hp => ?orUnmasked, fun hp => ?mask, fun hp hfits => ?fits,
    fun k hp hk hlow => ?oversized⟩, fun f => ?stream, fun _ _ => command_cfgBuild_of_fieldOperands,
    ?line⟩
  case orUnmasked =>
    rw [exec_cfgBuild_orUnmasked hp, ← ofNat_shifted_mod, Fields.shifted, orFields_eq]
    rfl
  case mask =>
    rw [exec_cfgBuild_mask hp, maskWord_eq]
    rfl
  case fits =>
    rw [exec_cfgBuild_reject_fits hp ((firstOversized_none f).mpr hfits), orWord_eq]
    rfl
  case oversized => exact exec_cfgBuild_reject_oversized hp (firstOversized_eq_some hk hlow)
  case stream => rfl
  case line => decide

/-- Settles O10: CFG_BUILD by its four cases, of which only REJECT with a lowest oversized sub-field
raises the error; any other command by `status_ne_fieldRange_of_ne_cfgBuild`. -/
theorem fieldRangeOnlyUnderRejectAtLowestIndex : Obligations.FieldRangeOnlyUnderRejectAtLowestIndex := by
  refine ⟨fun f s => ?cfgBuild, fun i s t r => status_ne_fieldRange_of_ne_cfgBuild⟩
  rcases execCfgBuild_cases f s with ⟨hp, h⟩ | ⟨hp, h⟩ | ⟨hp, hf, h⟩ | ⟨k, hp, hf, h⟩
  · exact ⟨_, _, h, rfl, by simp [hp], nofun, fun _ => ⟨rfl, _, rfl⟩⟩
  · exact ⟨_, _, h, rfl, by simp [hp], nofun, fun _ => ⟨rfl, _, rfl⟩⟩
  · have hfits := (firstOversized_none f).mp hf
    exact ⟨_, _, h, rfl, by simp [hfits], nofun, fun _ => ⟨rfl, _, rfl⟩⟩
  · obtain ⟨hk, hlow⟩ := firstOversized_some hf
    have hleast (j : Field) (hj : 2 ^ j.width ≤ (f.get j).toNat) : k.index ≤ j.index :=
      Nat.le_of_not_lt fun hlt => Nat.not_lt.mpr hj (hlow j hlt)
    exact ⟨_, _, h, rfl, ⟨fun _ => ⟨hp, k, hk⟩, fun _ => rfl⟩,
      fun _ => ⟨rfl, k, k.ofNat_index_toNat, hk, hleast⟩, absurd rfl⟩

end Sys2Proof.Proofs
end

section
/-! SUPPORT. What CFG_COMMIT answers, how its mnemonic assembles, and what SCALE answers once a word is
committed (R310, R430, R450). -/

namespace Sys2Proof.Machine

/-- CFG_COMMIT always answers, with its word latched and nothing else changed (R430). -/
theorem exec_cfgCommit (a : Word) (s : State) :
    exec (.cfgCommit a) s = .next (respond ⟨.ok, 0, .none⟩ (latchCfg a s)) := rfl

/-- SCALE with a committed word answers under that word's gain (R450). -/
theorem exec_scale_of_committed {w : Word} {s : State} (hv : s.cfgValid = true) (hc : s.cfg = some w)
    (x : Word) : exec (.scale x) s = .next (respond ⟨.ok, 0, .scaled (scaledBy w x)⟩ s) := by
  simp only [exec, execScale, hv, hc, if_true, succeed_eq]

/-- After a commit `CFG` holds its word and is valid, whatever it held before (R430). -/
theorem cfg_of_exec_cfgCommit {a : Word} {s t : State} (h : exec (.cfgCommit a) s = .next t) :
    t.cfg = some a ∧ t.cfgValid = true := by
  obtain rfl := Host.Outcome.next.inj ((exec_cfgCommit a s).symm.trans h)
  exact ⟨rfl, rfl⟩

end Sys2Proof.Machine

namespace Sys2Proof.Assembler

/-- A CFG_COMMIT line whose operand text reads as a word assembles to the stream of that CFG_COMMIT
(R310). -/
theorem command_cfgCommit_of_operand {text : List Char} {a : Word} (h : operand 16 text = .ok a) :
    command ['C', 'F', 'G', '_', 'C', 'O', 'M', 'M', 'I', 'T'] [text] = .ok (encode (.cfgCommit a)) := by
  simp only [command, wordOperand_singleton, h]
  rfl

end Sys2Proof.Assembler

namespace Sys2Proof.Proofs

open Sys2Proof.Machine Sys2Proof.Assembler

/-- Settles O18: the answer, the stream, the assembly and the rule's example; then a second commit and a
SCALE, from what a commit leaves in `CFG`. -/
theorem cfgCommitLatchesWord : Obligations.CfgCommitLatchesWord := by
  refine ⟨exec_cfgCommit, fun a => ?stream, fun _ _ => command_cfgCommit_of_operand, ?line,
    fun a b s t u ht hu => ?secondCommit, fun a x s t ht => ?scale⟩
  case stream => rfl
  case line => decide
  case secondCommit =>
    obtain ⟨htc, htv⟩ := cfg_of_exec_cfgCommit ht
    obtain ⟨huc, huv⟩ := cfg_of_exec_cfgCommit hu
    exact ⟨huc, huv, fun hba => ⟨by rw [huc, htc, hba], by rw [huv, htv]⟩⟩
  case scale =>
    obtain ⟨htc, htv⟩ := cfg_of_exec_cfgCommit ht
    exact exec_scale_of_committed htv htc x

end Sys2Proof.Proofs
end

section
/-! SUPPORT. The scaled product fits 32 bits, so the result SCALE returns reads as the exact product; how
the mnemonic assembles; and what SCALE answers before a commit (R310, R450 to R453, R455, R604). -/

namespace Sys2Proof

/-- The product at the extreme samples and the widest full-scale range bounds every product (R455). -/
theorem scaleNumerator_bounds (fsr : BitVec 16) (a : Word) :
    -2147450880 ≤ scaleNumerator fsr a ∧ scaleNumerator fsr a ≤ 2147385345 := by
  obtain ⟨hlow, hhigh⟩ := signed_bounds a
  have hfsr : (fsr.toNat : Int) ≤ 65535 := by have := fsr.isLt; omega
  have hlowest : -32768 * (fsr.toNat : Int) ≤ scaleNumerator fsr a :=
    mul_le_mul_of_nonneg_right hlow (Int.natCast_nonneg _)
  have hhighest : scaleNumerator fsr a ≤ 32767 * (fsr.toNat : Int) :=
    mul_le_mul_of_nonneg_right hhigh (Int.natCast_nonneg _)
  omega

/-- The 32-bit result reads as the exact product: nothing is cut (R453, R455). -/
@[simp] theorem scaleResult_toInt (fsr : BitVec 16) (a : Word) :
    (scaleResult fsr a).toInt = scaleNumerator fsr a := by
  obtain ⟨hlow, hhigh⟩ := scaleNumerator_bounds fsr a
  rw [scaleResult, BitVec.toInt_ofInt]
  exact Int.bmod_eq_of_le (by omega) (by omega)

end Sys2Proof

namespace Sys2Proof.Machine

/-- SCALE while `CFG_VALID = 0` raises `E_NOCFG` (R604). -/
theorem exec_scale_of_not_valid {s : State} (hv : s.cfgValid = false) (a : Word) :
    exec (.scale a) s = .next (respond ⟨.noCfg, 0, .none⟩ s) := by
  simp only [exec, execScale, hv, Bool.false_eq_true, if_false, raise_eq]

/-- A committed word's result reads as the signed sample times the full-scale range of the word's gain
field (R450, R452). -/
theorem scaledBy_toInt (w a : Word) :
    (scaledBy w a).toInt = signed a * ((fsrMilliVolts (gainOf w)).toNat : Int) :=
  scaleResult_toInt _ a

/-- With a committed word, the result SCALE is seen to answer is the one of that word (R450). -/
theorem eq_scaledBy_of_exec_scale {a w : Word} {s t : State} {r : Scaled} (hv : s.cfgValid = true)
    (hc : s.cfg = some w) (hexec : exec (.scale a) s = .next t)
    (hanswer : t.responses = s.responses ++ [⟨.ok, 0, .scaled r⟩]) : r = scaledBy w a := by
  rw [exec_scale_of_committed hv hc] at hexec
  obtain rfl := Host.Outcome.next.inj hexec
  cases (respond_responses_eq_iff rfl).mp hanswer
  rfl

end Sys2Proof.Machine

namespace Sys2Proof.Assembler

/-- A SCALE line whose operand text reads as a word assembles to the stream of that SCALE (R310). -/
theorem command_scale_of_operand {text : List Char} {a : Word} (h : operand 16 text = .ok a) :
    command ['S', 'C', 'A', 'L', 'E'] [text] = .ok (encode (.scale a)) := by
  simp only [command, wordOperand_singleton, h]
  rfl

end Sys2Proof.Assembler

namespace Sys2Proof.Proofs

open Sys2Proof.Machine Sys2Proof.Assembler

/-- Settles O19: the two answers, the first with the value its result reads as; the stream and the
assembly; and the rule's example, whose gain code is 1. -/
theorem scaleReturnsExactProduct : Obligations.ScaleReturnsExactProduct := by
  refine ⟨fun a w s hv hc => ?committed, fun a s hv => exec_scale_of_not_valid hv a, fun a => ?stream,
    fun _ _ => command_scale_of_operand, ?line, fun s hv hc => ?exampleWord⟩
  case committed => exact ⟨scaledBy w a, exec_scale_of_committed hv hc a, scaledBy_toInt w a⟩
  case stream => rfl
  case line => decide
  case exampleWord =>
    have hresult : scaledBy 0x4282 0x1000 = 16777216 := by decide
    rw [exec_scale_of_committed hv hc, hresult]
    rfl

/-- Settles O21: the result is the exact product, and `32768000 = 1000 * 2^15`. -/
theorem scaledResultMeansVoltage : Obligations.ScaledResultMeansVoltage := by
  intro a w s t r hv hc hexec hanswer
  rw [eq_scaledBy_of_exec_scale hv hc hexec hanswer, scaledBy_toInt, gainOf]
  push_cast
  ring

end Sys2Proof.Proofs
end

section
/-! SUPPORT. What NOP answers; what a reserved opcode byte means as a record, in the stream and in the
assembly: one byte of format N that raises `E_ILLEGAL_OP` (R310, R311, R480, R481). -/

namespace Sys2Proof

/-- The six RESERVED rows a reserved opcode byte can stand in, as a case split (R481). -/
theorem toInstr_reserved_cases (c : Command) (h : 6 ≤ c.op.toNat) :
    c.toInstr = .reserved06 c.op ∨ c.toInstr = .reserved08 c.op ∨ c.toInstr = .reserved10 c.op ∨
      c.toInstr = .reserved20 c.op ∨ c.toInstr = .reserved40 c.op ∨ c.toInstr = .reserved80 c.op := by
  simpa using toInstr_reserved c h

/-- A reserved opcode byte is the whole encoding of its command (R311). -/
theorem encode_toInstr_of_reserved (c : Command) (h : 6 ≤ c.op.toNat) : encode c.toInstr = [c.op] := by
  rcases toInstr_reserved_cases c h with e | e | e | e | e | e <;> rw [e] <;> rfl

/-- An opcode byte of format N is a command by itself: no byte after it is read (R311). -/
theorem decode_of_formatN {op : Byte} (h : formatOf op = .N) (bs : List Byte) :
    decode (op :: bs) = .ok ((Command.mk op 0 0 0 Fields.zero).toInstr, bs) := by
  simp only [decode, decodeCommand, h]

end Sys2Proof

namespace Sys2Proof.Machine

/-- NOP always answers `OK`, with nothing else (R480). -/
theorem exec_nop (s : State) : exec .nop s = .next (respond ⟨.ok, 0, .none⟩ s) := rfl

/-- A record with a reserved opcode byte raises `E_ILLEGAL_OP` with that byte, whatever its operands
hold (R481, R602). -/
theorem exec_toInstr_of_reserved (c : Command) (s : State) (h : 6 ≤ c.op.toNat) :
    exec c.toInstr s = .next (respond ⟨.illegalOp, c.op, .none⟩ s) := by
  rcases toInstr_reserved_cases c h with e | e | e | e | e | e <;> rw [e] <;> rfl

end Sys2Proof.Machine

namespace Sys2Proof.Assembler

/-- A `.byte` line whose operand text reads as an opcode byte of format N assembles to that byte
(R310). -/
theorem command_byte_of_operand {text : List Char} {op : Byte} (h : operand 8 text = .ok op)
    (hN : formatOf op = .N) : command ['.', 'b', 'y', 't', 'e'] [text] = .ok [op] := by
  have hraw : rawOpcode [text] = .ok op := by
    simp only [rawOpcode, h]
    exact if_pos hN
  simp only [command, hraw]
  rfl

end Sys2Proof.Assembler

namespace Sys2Proof.Proofs

open Sys2Proof.Machine Sys2Proof.Assembler

/-- Settles O3: the answer to a record; the stream, which decodes to such a record's command; the
assembly; and the rule's own line. -/
theorem reservedOpcodesAnswerIllegalOp : Obligations.ReservedOpcodesAnswerIllegalOp := by
  refine ⟨exec_toInstr_of_reserved, fun op bs h => ?stream,
    fun _ op htext h => command_byte_of_operand htext (Laws.EncodingShape.format_of_reserved op h), ?line⟩
  case stream =>
    have hN : formatOf op = .N := Laws.EncodingShape.format_of_reserved op h
    exact ⟨hN, congrArg Format.length hN, _, decode_of_formatN hN bs, encode_toInstr_of_reserved _ h,
      fun s => exec_toInstr_of_reserved _ s h⟩
  case line => decide

/-- Settles O1, part by part: the answer, the format, the stream and the assembly. -/
theorem nopSucceedsAndDoesNothing : Obligations.NopSucceedsAndDoesNothing := by
  refine ⟨exec_nop, ?format, ?stream, ?line⟩
  case format => rfl
  case stream => rfl
  case line => decide

end Sys2Proof.Proofs
end

section
/-! SUPPORT. The one cause of `E_NOCFG`: a SCALE while `CFG_VALID = 0` (R604, R605). -/

namespace Sys2Proof.Machine

/-- A command answers a status other than `E_NOCFG`, after at most a write that keeps the earlier
responses; or it is a SCALE before any commit; or it faults (R604). -/
theorem exec_status_or_scale_of_not_valid (i : Instr) (s : State) :
    (∃ q u, exec i s = .next (respond q u) ∧ u.responses = s.responses ∧ q.status ≠ .noCfg) ∨
    (∃ a, i = .scale a ∧ s.cfgValid = false) ∨
    exec i s = .fault .cfgHoldsNoValue := by
  cases i with
  | nop | enc16 | dec16 => exact .inl ⟨⟨.ok, _, _⟩, s, rfl, rfl, nofun⟩
  | cfgCommit a => exact .inl ⟨_, _, exec_cfgCommit a s, latchCfg_responses a s, nofun⟩
  | cfgBuild f =>
    rcases execCfgBuild_cases f s with ⟨-, h⟩ | ⟨-, h⟩ | ⟨-, -, h⟩ | ⟨k, -, -, h⟩
    all_goals exact .inl ⟨_, s, h, rfl, nofun⟩
  | scale a =>
    rcases execScale_cases a s with ⟨hv, -⟩ | ⟨w, -, -, h⟩ | ⟨-, -, h⟩
    · exact .inr (.inl ⟨a, rfl, hv⟩)
    · exact .inl ⟨_, s, h, rfl, nofun⟩
    · exact .inr (.inr h)
  | reserved06 | reserved08 | reserved10 | reserved20 | reserved40 | reserved80 =>
    exact .inl ⟨⟨.illegalOp, _, _⟩, s, rfl, rfl, nofun⟩

end Sys2Proof.Machine

namespace Sys2Proof.Proofs

open Sys2Proof.Machine

/-- Settles O20: SCALE before a commit raises the error; and, by what a command can answer, a SCALE
before a commit is the only command that does. -/
theorem scaleBeforeCommitAnswersNoCfg : Obligations.ScaleBeforeCommitAnswersNoCfg := by
  refine ⟨fun a s hv => exec_scale_of_not_valid hv a, fun i s t r hcause hexec hanswer => ?otherwise⟩
  case otherwise =>
    rcases exec_status_or_scale_of_not_valid i s with ⟨q, u, h, hu, hq⟩ | ⟨a, rfl, hv⟩ | h
    · obtain rfl : respond q u = t := Host.Outcome.next.inj (h.symm.trans hexec)
      obtain rfl := (respond_responses_eq_iff hu).mp hanswer
      exact hq
    · rcases hcause with hvalid | hne
      · exact nomatch hv.symm.trans hvalid
      · exact absurd rfl (hne a)
    · exact nomatch h.symm.trans hexec

end Sys2Proof.Proofs
end

section
/-! SUPPORT. The opcode table read through the record: each opcode byte's command and format, the bytes
a record's command is encoded to, and that the stream decoder reads exactly those (R303, R308, R311). -/

namespace Sys2Proof

/-! ### The rows of the opcode table -/

/-- Every opcode byte is one of the six commands' or reserved (R303). -/
theorem opcode_cases (op : Byte) :
    op = 0x00 ∨ op = 0x01 ∨ op = 0x02 ∨ op = 0x03 ∨ op = 0x04 ∨ op = 0x05 ∨ 6 ≤ op.toNat := by
  bv_omega

section
variable {c : Command}

theorem toInstr_of_op_00 (h : c.op = 0x00) : c.toInstr = .nop := by simp [Command.toInstr, h]

theorem toInstr_of_op_01 (h : c.op = 0x01) : c.toInstr = .enc16 c.a := by simp [Command.toInstr, h]

theorem toInstr_of_op_02 (h : c.op = 0x02) : c.toInstr = .dec16 c.b0 c.b1 := by
  simp [Command.toInstr, h]

theorem toInstr_of_op_03 (h : c.op = 0x03) : c.toInstr = .cfgBuild c.f := by simp [Command.toInstr, h]

theorem toInstr_of_op_04 (h : c.op = 0x04) : c.toInstr = .cfgCommit c.a := by
  simp [Command.toInstr, h]

theorem toInstr_of_op_05 (h : c.op = 0x05) : c.toInstr = .scale c.a := by simp [Command.toInstr, h]

end

/-- A RESERVED row is fixed by the opcode byte: the row in which the byte lies is the one the dispatch
finds (R303, R481). -/
theorem toInstr_of_wellFormed_reserved : ∀ op : Byte, ∀ i ∈ [Instr.reserved06 op, .reserved08 op,
    .reserved10 op, .reserved20 op, .reserved40 op, .reserved80 op],
    i.wellFormed = true → (Command.mk op 0 0 0 Fields.zero).toInstr = i := by
  decide

/-- Every well-formed instruction is the command of some record (R302, R309). -/
theorem exists_toInstr_eq_of_wellFormed {i : Instr} (h : i.wellFormed = true) :
    ∃ c : Command, c.toInstr = i := by
  cases i with
  | nop => exact ⟨⟨0x00, 0, 0, 0, Fields.zero⟩, rfl⟩
  | enc16 a => exact ⟨⟨0x01, a, 0, 0, Fields.zero⟩, rfl⟩
  | dec16 b0 b1 => exact ⟨⟨0x02, 0, b0, b1, Fields.zero⟩, rfl⟩
  | cfgBuild f => exact ⟨⟨0x03, 0, 0, 0, f⟩, rfl⟩
  | cfgCommit a => exact ⟨⟨0x04, a, 0, 0, Fields.zero⟩, rfl⟩
  | scale a => exact ⟨⟨0x05, a, 0, 0, Fields.zero⟩, rfl⟩
  | reserved06 op | reserved08 op | reserved10 op | reserved20 op | reserved40 op | reserved80 op =>
    exact ⟨_, toInstr_of_wellFormed_reserved op _ (by simp) h⟩

/-! ### Operands a format reads -/

/-- Two records that agree on the opcode byte and on the operands of its format are the same command
(R308). -/
theorem toInstr_congr {c d : Command} (hop : c.op = d.op) (ha : formatOf c.op = .W → c.a = d.a)
    (hb : formatOf c.op = .BB → c.b0 = d.b0 ∧ c.b1 = d.b1) (hf : formatOf c.op = .F9 → c.f = d.f) :
    c.toInstr = d.toInstr := by
  rcases opcode_cases c.op with h | h | h | h | h | h | h
  · rw [toInstr_of_op_00 h, toInstr_of_op_00 (hop ▸ h)]
  · rw [toInstr_of_op_01 h, toInstr_of_op_01 (hop ▸ h), ha (by rw [h]; rfl)]
  · obtain ⟨h0, h1⟩ := hb (by rw [h]; rfl)
    rw [toInstr_of_op_02 h, toInstr_of_op_02 (hop ▸ h), h0, h1]
  · rw [toInstr_of_op_03 h, toInstr_of_op_03 (hop ▸ h), hf (by rw [h]; rfl)]
  · rw [toInstr_of_op_04 h, toInstr_of_op_04 (hop ▸ h), ha (by rw [h]; rfl)]
  · rw [toInstr_of_op_05 h, toInstr_of_op_05 (hop ▸ h), ha (by rw [h]; rfl)]
  · have ne (n : Byte) (hn : n.toNat < 6) : ¬ d.op = n := fun e => by rw [hop, e] at h; omega
    have h0 := ne 0x00#8 (by decide)
    have h1 := ne 0x01#8 (by decide)
    have h2 := ne 0x02#8 (by decide)
    have h3 := ne 0x03#8 (by decide)
    have h4 := ne 0x04#8 (by decide)
    have h5 := ne 0x05#8 (by decide)
    simp only [Command.toInstr, hop, if_neg h0, if_neg h1, if_neg h2, if_neg h3, if_neg h4, if_neg h5]

/-- The stream bytes of the operands a record's format reads (R311). -/
def Command.operandBytes (c : Command) : List Byte :=
  match formatOf c.op with
  | .N => []
  | .W => wordBytes c.a
  | .BB => [c.b0, c.b1]
  | .F9 => c.f.bytes

/-- A record's command is encoded as its opcode byte and the operands of its format (R303, R311). -/
theorem encode_toInstr (c : Command) : encode c.toInstr = c.op :: c.operandBytes := by
  rcases opcode_cases c.op with h | h | h | h | h | h | h
  · rw [toInstr_of_op_00 h, Command.operandBytes, h]; rfl
  · rw [toInstr_of_op_01 h, Command.operandBytes, h]; rfl
  · rw [toInstr_of_op_02 h, Command.operandBytes, h]; rfl
  · rw [toInstr_of_op_03 h, Command.operandBytes, h]; rfl
  · rw [toInstr_of_op_04 h, Command.operandBytes, h]; rfl
  · rw [toInstr_of_op_05 h, Command.operandBytes, h]; rfl
  · rw [encode_toInstr_of_reserved c h, Command.operandBytes, Laws.EncodingShape.format_of_reserved c.op h]

/-! ### The decoder against the encoder -/

/-- The stream decoder returns the command of the record it reads (R311). -/
theorem decode_ok_iff {bs left : List Byte} {i : Instr} :
    decode bs = .ok (i, left) ↔ ∃ c, decodeCommand bs = .ok (c, left) ∧ c.toInstr = i := by
  unfold decode
  split <;> simp_all [and_comm]

/-- From the encoding of a record's command the decoder reads that command and leaves the bytes after
it: the operands it does not read change nothing (R308, R311). -/
theorem decode_encode_toInstr (c : Command) (rest : List Byte) :
    decode (encode c.toInstr ++ rest) = .ok (c.toInstr, rest) := by
  rw [encode_toInstr, List.cons_append, decode_ok_iff]
  cases hformat : formatOf c.op with
  | N =>
    refine ⟨⟨c.op, 0, 0, 0, Fields.zero⟩, ?_, by apply toInstr_congr <;> simp [hformat]⟩
    simp [decodeCommand, Command.operandBytes, hformat]
  | W =>
    refine ⟨⟨c.op, c.a, 0, 0, Fields.zero⟩, ?_, by apply toInstr_congr <;> simp [hformat]⟩
    simp [decodeCommand, Command.operandBytes, hformat]
  | BB =>
    refine ⟨⟨c.op, 0, c.b0, c.b1, Fields.zero⟩, ?_, by apply toInstr_congr <;> simp [hformat]⟩
    simp [decodeCommand, takePair, Command.operandBytes, hformat]
  | F9 =>
    refine ⟨⟨c.op, 0, 0, 0, c.f⟩, ?_, by apply toInstr_congr <;> simp [hformat]⟩
    simp [decodeCommand, Command.operandBytes, hformat]

/-- Decoding the encoding of a well-formed instruction gives it back (R311). -/
theorem decode_encode {i : Instr} (h : i.wellFormed = true) (rest : List Byte) :
    decode (encode i ++ rest) = .ok (i, rest) := by
  obtain ⟨c, rfl⟩ := exists_toInstr_eq_of_wellFormed h
  exact decode_encode_toInstr c rest

/-- `takePair` reads exactly the two bytes it returns. -/
theorem takePair_some {bs rest : List Byte} {b0 b1 : Byte} (h : takePair bs = some ((b0, b1), rest)) :
    bs = b0 :: b1 :: rest := by
  match bs, h with
  | _ :: _ :: _, h => cases h; rfl

theorem takePair_none {bs : List Byte} : takePair bs = none ↔ bs.length < 2 := by
  match bs with
  | [] => simp [takePair]
  | [_] => simp [takePair]
  | _ :: _ :: _ => simp [takePair]

/-- The decoder reads exactly the opcode byte and the operand bytes of the record it returns (R311). -/
theorem decodeCommand_ok {bs left : List Byte} {c : Command} (h : decodeCommand bs = .ok (c, left)) :
    bs = c.op :: (c.operandBytes ++ left) := by
  match bs, h with
  | op :: bs, h =>
    simp only [decodeCommand] at h
    split at h
    next hformat =>
      cases h
      simp [Command.operandBytes, hformat]
    next hformat =>
      split at h
      next ht =>
        cases h
        simp [Command.operandBytes, hformat, takeWord_some ht]
      next => cases h
    next hformat =>
      split at h
      next ht =>
        cases h
        simp [Command.operandBytes, hformat, takePair_some ht]
      next => cases h
    next hformat =>
      split at h
      next ht =>
        cases h
        simp [Command.operandBytes, hformat, takeFields_some ht]
      next => cases h

/-- A stream is refused as truncated exactly where its operand bytes end too early (R311, I9). -/
theorem decode_truncated_iff (op : Byte) (bs : List Byte) :
    decode (op :: bs) = .error (.truncated op) ↔ (op :: bs).length < (formatOf op).length := by
  cases hformat : formatOf op with
  | N => simp [decode_of_formatN hformat, Format.length]
  | W =>
    have hshort : takeWord bs = none ↔ (op :: bs).length < Format.W.length := by
      rw [takeWord_none, List.length_cons, Format.length]; omega
    rw [← hshort]
    cases ht : takeWord bs <;> simp [decode, decodeCommand, hformat, ht]
  | BB =>
    have hshort : takePair bs = none ↔ (op :: bs).length < Format.BB.length := by
      rw [takePair_none, List.length_cons, Format.length]; omega
    rw [← hshort]
    cases ht : takePair bs <;> simp [decode, decodeCommand, hformat, ht]
  | F9 =>
    have hshort : takeFields bs = none ↔ (op :: bs).length < Format.F9.length := by
      rw [takeFields_none, List.length_cons, Format.length]; omega
    rw [← hshort]
    cases ht : takeFields bs <;> simp [decode, decodeCommand, hformat, ht]

end Sys2Proof

namespace Sys2Proof.Proofs

open Sys2Proof.Machine

/-- Settles O38: a well-formed instruction is the command of a record, and the decoder reads such a
command's encoding back. -/
theorem decodeOfEncodeIsIdentity : Obligations.DecodeOfEncodeIsIdentity :=
  fun _ rest h => decode_encode h rest

/-- Settles O39, through the record the decoder reads: its command is well formed, and its encoding is
the bytes that were read. -/
theorem decodedBytesAreTheEncoding : Obligations.DecodedBytesAreTheEncoding := by
  intro bs left i h
  obtain ⟨c, hc, rfl⟩ := decode_ok_iff.mp h
  refine ⟨(toInstr_head c).1, ?_⟩
  rw [encode_toInstr, decodeCommand_ok hc, List.cons_append]

/-- Settles O36: such records are the same command. -/
theorem unreadOperandsAffectNothing : Obligations.UnreadOperandsAffectNothing := by
  intro c d s hop ha hb hf
  rw [toInstr_congr hop ha hb hf]

/-- Settles O37, by running the decoder on each stream. -/
theorem sampleStreamsDecode : Obligations.SampleStreamsDecode :=
  ⟨rfl, rfl, rfl, rfl, rfl, rfl, rfl, rfl, rfl, rfl, rfl, rfl⟩

end Sys2Proof.Proofs
end

section
/-! SUPPORT. What a step does, by what the host presents: a decoded stream, a truncated one, a record, the
reset event or nothing (R300, R302, R311, R700). -/

namespace Sys2Proof.Machine

section
variable {s : State}

theorem step_of_idle (h : takeMove s.input = .idle) : step s = .next s := by
  simp only [step, h]

theorem step_of_resetEvent {rest : List HostMove} (h : takeMove s.input = .resetEvent rest) :
    step s = .next (resetBlock (setInput rest s)) := by
  simp only [step, h]

theorem step_of_command {i : Instr} {rest : List HostMove} (h : takeMove s.input = .command i rest) :
    step s = exec i (setInput rest s) := by
  simp only [step, h]

theorem step_of_truncated {op : Byte} (h : takeMove s.input = .truncated op) :
    step s = .refused (.truncatedCommand op) := by
  simp only [step, h]

end

theorem takeMove_nil : takeMove [] = .idle := rfl

theorem takeMove_reset (rest : List HostMove) : takeMove (.reset :: rest) = .resetEvent rest := rfl

theorem takeMove_command (c : Command) (rest : List HostMove) :
    takeMove (.command c :: rest) = .command c.toInstr rest := rfl

theorem takeMove_stream_of_ok {bs left : List Byte} {i : Instr} (h : decode bs = .ok (i, left))
    (rest : List HostMove) : takeMove (.stream bs :: rest) = .command i (remaining left rest) := by
  simp only [takeMove, h]

theorem takeMove_stream_of_truncated {bs : List Byte} {op : Byte}
    (h : decode bs = .error (.truncated op)) (rest : List HostMove) :
    takeMove (.stream bs :: rest) = .truncated op := by
  simp only [takeMove, h]

@[simp] theorem remaining_nil (moves : List HostMove) : remaining [] moves = moves := rfl

theorem remaining_of_ne_nil {bs : List Byte} (h : bs ≠ []) (moves : List HostMove) :
    remaining bs moves = .stream bs :: moves := by
  match bs, h with
  | _ :: _, _ => rfl

theorem remaining_eq_ite (bs : List Byte) (moves : List HostMove) :
    remaining bs moves = if bs = [] then moves else .stream bs :: moves := by
  split
  next h => rw [h, remaining_nil]
  next h => exact remaining_of_ne_nil h moves

/-- A step on a presented record runs the record's command (R302, R309). -/
theorem step_of_record {s : State} {c : Command} {rest : List HostMove}
    (h : s.input = .command c :: rest) : step s = exec c.toInstr (setInput rest s) :=
  step_of_command (by rw [h, takeMove_command])

end Sys2Proof.Machine

namespace Sys2Proof.Proofs

open Sys2Proof.Machine

/-- Settles O33, by what is presented: a stream's command with the bytes left standing first, or a
record's command. -/
theorem stepRunsTheDecodedCommand : Obligations.StepRunsTheDecodedCommand := by
  refine ⟨fun s bs left rest i hinput hdecode => ?stream, fun s c rest hinput => step_of_record hinput⟩
  case stream =>
    rw [step_of_command (by rw [hinput, takeMove_stream_of_ok hdecode]), remaining_eq_ite]
    rfl

/-- Settles O34: nothing is presented, so the step is idle. -/
theorem idleStepChangesNothing : Obligations.IdleStepChangesNothing :=
  fun s hinput => step_of_idle (by rw [hinput, takeMove_nil])

/-- Settles O31: the step takes the reset event. -/
theorem resetEventClearsValid : Obligations.ResetEventClearsValid :=
  fun s rest hinput => step_of_resetEvent (by rw [hinput, takeMove_reset])

/-- Settles O35: the decoder's refusal is about the stream's length, and the step passes it on. -/
theorem truncatedStreamIsRefused : Obligations.TruncatedStreamIsRefused := by
  refine ⟨decode_truncated_iff, fun s op bs rest hinput hshort => ?step⟩
  case step =>
    have hdecode := (decode_truncated_iff op bs).mpr hshort
    exact step_of_truncated (by rw [hinput, takeMove_stream_of_truncated hdecode])

/-- Settles O44: the commit's step leaves the word in `CFG`, and the next step's SCALE finds it there. -/
theorem commitVisibleToNextScale : Obligations.CommitVisibleToNextScale := by
  intro s w a rest c d hc hcw hd hda hinput
  have hcommit : step s =
      .next (respond ⟨.ok, 0, .none⟩ (latchCfg w (setInput (.command d :: rest) s))) := by
    rw [step_of_record hinput, toInstr_of_op_04 hc, hcw, exec_cfgCommit]
  have hscale : step (respond ⟨.ok, 0, .none⟩ (latchCfg w (setInput (.command d :: rest) s))) =
      .next (respond ⟨.ok, 0, .scaled (scaledBy w a)⟩
        (setInput rest (respond ⟨.ok, 0, .none⟩ (latchCfg w (setInput (.command d :: rest) s))))) := by
    rw [step_of_record (rest := rest) rfl, toInstr_of_op_05 hd, hda, exec_scale_of_committed rfl rfl]
  rw [core_run_next 1 hcommit, core_run_next 0 hscale, core_run_zero]
  simp [respond, setInput, latchCfg]

end Sys2Proof.Proofs
end

section
/-! SUPPORT. What every command keeps: its frame, the one legal response, and the invariant, through
steps and runs (R101, R102, R306, R309). -/

namespace Sys2Proof.Machine

/-! ### Frame and response -/

/-- A command that completes leaves the parameter and the presented moves alone, adds one response, and
writes `CFG` only if it is CFG_COMMIT (R101, R702). -/
theorem exec_frame {i : Instr} {s t : State} (h : exec i s = .next t) :
    t.policy = s.policy ∧ t.input = s.input ∧ (∃ r, t.responses = s.responses ++ [r]) ∧
      ((∀ a, i ≠ .cfgCommit a) → t.cfg = s.cfg ∧ t.cfgValid = s.cfgValid) := by
  rcases exec_cases i s with ⟨r, -, hr⟩ | ⟨a, rfl, ha⟩ | ⟨_, -, -, -, hf⟩
  · obtain rfl := Host.Outcome.next.inj (hr.symm.trans h)
    exact ⟨rfl, rfl, ⟨r, rfl⟩, fun _ => ⟨rfl, rfl⟩⟩
  · obtain rfl := Host.Outcome.next.inj (ha.symm.trans h)
    exact ⟨rfl, rfl, ⟨_, rfl⟩, fun hne => absurd rfl (hne a)⟩
  · exact nomatch hf.symm.trans h

/-- The index of a sub-field may stand as `info` of `E_FIELD_RANGE` (R306, R428). -/
theorem legal_fieldRange (k : Field) :
    (Response.mk .fieldRange (BitVec.ofNat 8 k.index) .none).legal = true := by
  have hk : k.index ≤ 8 := Nat.le_of_lt_succ k.index_lt
  simp only [Response.legal, k.ofNat_index_toNat]
  simpa using hk

/-- A record's command returns a legal response, after at most a write that keeps the earlier responses;
or it faults (R306). -/
theorem exec_toInstr_responds_legal (c : Command) (s : State) :
    (∃ r u, r.legal = true ∧ u.responses = s.responses ∧ exec c.toInstr s = .next (respond r u)) ∨
    exec c.toInstr s = .fault .cfgHoldsNoValue := by
  rcases opcode_cases c.op with h | h | h | h | h | h | h
  · rw [toInstr_of_op_00 h]
    exact .inl ⟨_, s, rfl, rfl, exec_nop s⟩
  · rw [toInstr_of_op_01 h]
    exact .inl ⟨_, s, rfl, rfl, exec_enc16 c.a s⟩
  · rw [toInstr_of_op_02 h]
    exact .inl ⟨_, s, rfl, rfl, exec_dec16 c.b0 c.b1 s⟩
  · rw [toInstr_of_op_03 h]
    rcases execCfgBuild_cases c.f s with ⟨-, h⟩ | ⟨-, h⟩ | ⟨-, -, h⟩ | ⟨k, -, -, h⟩
    · exact .inl ⟨_, s, rfl, rfl, h⟩
    · exact .inl ⟨_, s, rfl, rfl, h⟩
    · exact .inl ⟨_, s, rfl, rfl, h⟩
    · exact .inl ⟨_, s, legal_fieldRange k, rfl, h⟩
  · rw [toInstr_of_op_04 h]
    exact .inl ⟨_, latchCfg c.a s, rfl, latchCfg_responses c.a s, exec_cfgCommit c.a s⟩
  · rw [toInstr_of_op_05 h]
    rcases execScale_cases c.a s with ⟨-, h⟩ | ⟨w, -, -, h⟩ | ⟨-, -, h⟩
    · exact .inl ⟨_, s, rfl, rfl, h⟩
    · exact .inl ⟨_, s, rfl, rfl, h⟩
    · exact .inr h
  · exact .inl ⟨_, s, by simpa [Response.legal] using h, rfl, exec_toInstr_of_reserved c s h⟩

/-- A well-formed command that completes adds one legal response (R306). -/
theorem exists_legal_response {i : Instr} {s t : State} (hi : i.wellFormed = true)
    (h : exec i s = .next t) : ∃ r, t.responses = s.responses ++ [r] ∧ r.legal = true := by
  obtain ⟨c, rfl⟩ := exists_toInstr_eq_of_wellFormed hi
  rcases exec_toInstr_responds_legal c s with ⟨r, u, hr, hu, hnext⟩ | hfault
  · obtain rfl := Host.Outcome.next.inj (hnext.symm.trans h)
    exact ⟨r, by rw [respond_responses, hu], hr⟩
  · exact nomatch hfault.symm.trans h

/-- The response an outcome is seen to return is the one it ends with. -/
theorem response_eq_of_next {o : Host.Outcome State Fault Refusal} {s t u : State} {q r : Response}
    (hq : o = .next (respond q u)) (hu : u.responses = s.responses) (ht : o = .next t)
    (hanswer : t.responses = s.responses ++ [r]) : r = q := by
  obtain rfl := Host.Outcome.next.inj (hq.symm.trans ht)
  exact ((respond_responses_eq_iff hu).mp hanswer).symm

/-! ### The invariant -/

theorem Inv.setInput {s : State} (h : Inv s) (moves : List HostMove) : Inv (setInput moves s) :=
  ⟨h.cfgTruthful, h.responsesLegal⟩

theorem Inv.resetBlock {s : State} (h : Inv s) : Inv (resetBlock s) := ⟨rfl, h.responsesLegal⟩

/-- A command keeps the truth of `CFG_VALID`: CFG_COMMIT writes both elements, the others none (R102). -/
theorem exec_cfgTruthful {i : Instr} {s t : State} (hs : CfgTruthful s) (h : exec i s = .next t) :
    CfgTruthful t := by
  rcases exec_cases i s with ⟨r, -, hr⟩ | ⟨a, -, ha⟩ | ⟨_, -, -, -, hf⟩
  · obtain rfl := Host.Outcome.next.inj (hr.symm.trans h)
    exact hs
  · obtain rfl := Host.Outcome.next.inj (ha.symm.trans h)
    rfl
  · exact nomatch hf.symm.trans h

/-- A well-formed command keeps the invariant. -/
theorem Inv.exec {i : Instr} {s t : State} (hs : Inv s) (hi : i.wellFormed = true)
    (h : exec i s = .next t) : Inv t := by
  obtain ⟨r, hresponses, hr⟩ := exists_legal_response hi h
  refine ⟨exec_cfgTruthful hs.cfgTruthful h, fun q hq => ?_⟩
  rw [hresponses, List.mem_append, List.mem_singleton] at hq
  rcases hq with hq | rfl
  · exact hs.responsesLegal q hq
  · exact hr

/-- Where `CFG_VALID` tells the truth every command completes: the fault needs it to lie (R309, I3). -/
theorem exec_completes {s : State} (hs : CfgTruthful s) (i : Instr) : ∃ t, exec i s = .next t := by
  rcases exec_cases i s with ⟨_, -, h⟩ | ⟨_, -, h⟩ | ⟨_, -, hv, hc, -⟩
  · exact ⟨_, h⟩
  · exact ⟨_, h⟩
  · rw [CfgTruthful, hv, hc] at hs
    cases hs

/-- From a good state a step completes in a good state, or the presented stream is truncated (I9). -/
theorem step_of_inv {s : State} (hs : Inv s) :
    (∃ t, step s = .next t ∧ Inv t) ∨ ∃ op, step s = .refused (.truncatedCommand op) := by
  rcases step_cases s with ⟨-, h⟩ | ⟨rest, -, h⟩ | ⟨i, rest, hi, h⟩ | ⟨op, -, h⟩
  · exact .inl ⟨s, h, hs⟩
  · exact .inl ⟨_, h, (hs.setInput rest).resetBlock⟩
  · obtain ⟨t, ht⟩ := exec_completes (hs.setInput rest).cfgTruthful i
    exact .inl ⟨t, h.trans ht, (hs.setInput rest).exec (takeMove_wellFormed hi) ht⟩
  · exact .inr ⟨op, h⟩

/-- From a good state a run completes in a good state, or ends at a truncated stream (I9). -/
theorem run_of_inv (k : Nat) {s : State} (hs : Inv s) :
    (∃ t, Sys2Proof.core.run k s = .next t ∧ Inv t) ∨
    ∃ op, Sys2Proof.core.run k s = .refused (.truncatedCommand op) := by
  induction k generalizing s with
  | zero => exact .inl ⟨s, core_run_zero s, hs⟩
  | succ k ih =>
    rcases step_of_inv hs with ⟨t, h, ht⟩ | ⟨op, h⟩
    · rw [core_run_next k h]
      exact ih ht
    · exact .inr ⟨op, core_run_refused k h⟩

end Sys2Proof.Machine

namespace Sys2Proof.Proofs

open Sys2Proof.Machine

/-- Settles O40: of the two outcomes a step has from a good state, only the first answers a state. -/
theorem stepKeepsInv : Obligations.StepKeepsInv := by
  intro s t hs h
  rcases step_of_inv hs with ⟨u, hu, hinv⟩ | ⟨op, hop⟩
  · obtain rfl := Host.Outcome.next.inj (hu.symm.trans h)
    exact hinv
  · exact nomatch hop.symm.trans h

/-- Settles O41, by induction on the number of steps. -/
theorem runsNeverFault : Obligations.RunsNeverFault := fun k _ hs => run_of_inv k hs

/-- Settles O28: a record's command is well formed, so it completes and keeps the invariant. -/
theorem everyRecordCompletes : Obligations.EveryRecordCompletes := by
  intro c s hs
  obtain ⟨t, ht⟩ := exec_completes hs.cfgTruthful c.toInstr
  exact ⟨t, ht, hs.exec (toInstr_head c).1 ht⟩

/-- Settles O26: the response is the one of `exists_legal_response`; the codes are by definition. -/
theorem oneResponsePerCommand : Obligations.OneResponsePerCommand :=
  ⟨fun _ _ _ hi h => exists_legal_response hi h, rfl, rfl, rfl, rfl⟩

/-- Settles O27, opcode byte by opcode byte: what the record's command is and what it answers. -/
theorem statusesOfEachCommand : Obligations.StatusesOfEachCommand := by
  intro c s t r hexec hanswer
  refine ⟨fun hop => ?ok, fun hop => ?cfgBuild, fun hop => ?scale, fun hop => ?reserved⟩
  case ok =>
    have hop' : c.op = 0x00 ∨ c.op = 0x01 ∨ c.op = 0x02 ∨ c.op = 0x04 := by
      simpa [← BitVec.toNat_inj] using hop
    rcases hop' with h | h | h | h
    · rw [toInstr_of_op_00 h] at hexec
      rw [response_eq_of_next (exec_nop s) rfl hexec hanswer]
    · rw [toInstr_of_op_01 h] at hexec
      rw [response_eq_of_next (exec_enc16 c.a s) rfl hexec hanswer]
    · rw [toInstr_of_op_02 h] at hexec
      rw [response_eq_of_next (exec_dec16 c.b0 c.b1 s) rfl hexec hanswer]
    · rw [toInstr_of_op_04 h] at hexec
      rw [response_eq_of_next (exec_cfgCommit c.a s) (latchCfg_responses c.a s) hexec hanswer]
  case cfgBuild =>
    rw [toInstr_of_op_03 hop] at hexec
    rcases execCfgBuild_cases c.f s with ⟨-, h⟩ | ⟨-, h⟩ | ⟨-, -, h⟩ | ⟨k, hp, -, h⟩
    · exact .inl (by rw [response_eq_of_next h rfl hexec hanswer])
    · exact .inl (by rw [response_eq_of_next h rfl hexec hanswer])
    · exact .inl (by rw [response_eq_of_next h rfl hexec hanswer])
    · exact .inr ⟨by rw [response_eq_of_next h rfl hexec hanswer], hp⟩
  case scale =>
    rw [toInstr_of_op_05 hop] at hexec
    rcases execScale_cases c.a s with ⟨hv, h⟩ | ⟨w, -, -, h⟩ | ⟨-, -, h⟩
    · exact .inr ⟨by rw [response_eq_of_next h rfl hexec hanswer], hv⟩
    · exact .inl (by rw [response_eq_of_next h rfl hexec hanswer])
    · exact nomatch h.symm.trans hexec
  case reserved =>
    rw [response_eq_of_next (exec_toInstr_of_reserved c s hop) rfl hexec hanswer]

/-- Settles O30, by what a command can do. -/
theorem commandFrame : Obligations.CommandFrame := fun _ _ _ h => exec_frame h

/-- Settles O29: an idle step and every command but CFG_COMMIT keep both elements, the reset event clears
them, and CFG_COMMIT latches its word. -/
theorem onlyCommitAndResetWriteCfg : Obligations.OnlyCommitAndResetWriteCfg := by
  intro s t ht
  rcases step_cases s with ⟨-, h⟩ | ⟨rest, hmove, h⟩ | ⟨i, rest, hmove, h⟩ | ⟨op, -, h⟩
  · obtain rfl := Host.Outcome.next.inj (h.symm.trans ht)
    exact .inl ⟨rfl, rfl⟩
  · obtain rfl := Host.Outcome.next.inj (h.symm.trans ht)
    exact .inr (.inl ⟨rest, hmove, rfl, rfl⟩)
  · have hexec : exec i (setInput rest s) = .next t := h.symm.trans ht
    by_cases hi : ∃ a, i = .cfgCommit a
    · obtain ⟨a, rfl⟩ := hi
      exact .inr (.inr ⟨a, rest, hmove, cfg_of_exec_cfgCommit hexec⟩)
    · obtain ⟨-, -, -, hkeep⟩ := exec_frame hexec
      exact .inl (hkeep fun a ha => hi ⟨a, ha⟩)
  · exact nomatch h.symm.trans ht

/-- Settles O32, field by field; nothing is committed and nothing has been returned. -/
theorem powerOnIsResetState : Obligations.PowerOnIsResetState :=
  ⟨rfl, rfl, rfl, rfl, rfl, ⟨rfl, nofun⟩⟩

/-- Settles O2: each RESERVED row raises the error with its opcode byte. -/
theorem reservedRowsAnswerIllegalOp : Obligations.ReservedRowsAnswerIllegalOp := by
  intro op s
  have hraise : illegalOpcode op s =
      .next { s with responses := s.responses ++ [⟨.illegalOp, op, .none⟩] } := raise_eq .illegalOp op s
  exact ⟨hraise, hraise, hraise, hraise, hraise, hraise⟩

end Sys2Proof.Proofs
end

section
/-! SUPPORT. What a command's answer depends on: the parameter, `CFG_VALID`, and while it is 1 the gain
field of `CFG`; so two states alike to the host stay alike (R101, R104, R458). -/

namespace Sys2Proof.Machine

/-- A committed word's result depends on the word's gain field only (R458). -/
theorem scaledBy_congr {w w' : Word} (h : gainOf w = gainOf w') (a : Word) :
    scaledBy w a = scaledBy w' a := by
  unfold scaledBy
  rw [h]

section
variable {s t : State}

/-- CFG_BUILD's answer depends on the parameter only (R425). -/
theorem exec_cfgBuild_congr (f : Fields) (hp : s.policy = t.policy) :
    ∃ r, exec (.cfgBuild f) s = .next (respond r s) ∧ exec (.cfgBuild f) t = .next (respond r t) := by
  cases h : s.policy with
  | orUnmasked => exact ⟨_, exec_cfgBuild_orUnmasked h, exec_cfgBuild_orUnmasked (hp ▸ h)⟩
  | mask => exact ⟨_, exec_cfgBuild_mask h, exec_cfgBuild_mask (hp ▸ h)⟩
  | reject =>
    cases hf : f.firstOversized with
    | none => exact ⟨_, exec_cfgBuild_reject_fits h hf, exec_cfgBuild_reject_fits (hp ▸ h) hf⟩
    | some k =>
      exact ⟨_, exec_cfgBuild_reject_oversized h hf, exec_cfgBuild_reject_oversized (hp ▸ h) hf⟩

/-- SCALE's answer depends on `CFG_VALID` and, while it is 1, on the gain field of `CFG` (R450, R458). -/
theorem exec_scale_congr (a : Word) (hv : s.cfgValid = t.cfgValid)
    (hg : s.cfgValid = true → s.cfg.map gainOf = t.cfg.map gainOf) :
    (∃ r, exec (.scale a) s = .next (respond r s) ∧ exec (.scale a) t = .next (respond r t)) ∨
    (∃ e, exec (.scale a) s = .fault e ∧ exec (.scale a) t = .fault e) := by
  rcases execScale_cases a s with ⟨hs, h⟩ | ⟨w, hs, hc, h⟩ | ⟨hs, hc, h⟩
  · exact .inl ⟨_, h, exec_scale_of_not_valid (hv ▸ hs) a⟩
  · have hgain := hg hs
    rw [hc, Option.map_some, eq_comm, Option.map_eq_some_iff] at hgain
    obtain ⟨w', hc', hw⟩ := hgain
    exact .inl ⟨_, h, scaledBy_congr hw a ▸ exec_scale_of_committed (hv ▸ hs) hc' a⟩
  · have hgain := hg hs
    rw [hc, Option.map_none, eq_comm, Option.map_eq_none_iff] at hgain
    rcases execScale_cases a t with ⟨ht, -⟩ | ⟨w, -, hc', -⟩ | ⟨-, -, h'⟩
    · exact nomatch hs.symm.trans (hv.trans ht)
    · exact nomatch hc'.symm.trans hgain
    · exact .inr ⟨_, h, h'⟩

/-- Two states that agree on what a command's answer depends on: the same response, the same word latched
or the same fault. -/
theorem exec_congr (i : Instr) (hp : s.policy = t.policy) (hv : s.cfgValid = t.cfgValid)
    (hg : s.cfgValid = true → s.cfg.map gainOf = t.cfg.map gainOf) :
    (∃ r, exec i s = .next (respond r s) ∧ exec i t = .next (respond r t)) ∨
    (∃ a r, exec i s = .next (respond r (latchCfg a s)) ∧ exec i t = .next (respond r (latchCfg a t))) ∨
    (∃ e, exec i s = .fault e ∧ exec i t = .fault e) := by
  cases i with
  | cfgBuild f => exact .inl (exec_cfgBuild_congr f hp)
  | cfgCommit a => exact .inr (.inl ⟨a, _, exec_cfgCommit a s, exec_cfgCommit a t⟩)
  | scale a => exact (exec_scale_congr a hv hg).imp id .inr
  | nop | enc16 | dec16 | reserved06 | reserved08 | reserved10 | reserved20 | reserved40 | reserved80 =>
    exact .inl ⟨_, rfl, rfl⟩

/-! ### States alike to the host -/

theorem SameToHost.respond (h : SameToHost s t) (r : Response) : SameToHost (respond r s) (respond r t) :=
  ⟨h.cfgValid, h.gain, h.policy, h.input, congrArg (· ++ [r]) h.responses⟩

theorem SameToHost.setInput (h : SameToHost s t) (moves : List HostMove) :
    SameToHost (setInput moves s) (setInput moves t) :=
  ⟨h.cfgValid, h.gain, h.policy, rfl, h.responses⟩

theorem SameToHost.resetBlock (h : SameToHost s t) : SameToHost (resetBlock s) (resetBlock t) :=
  ⟨rfl, nofun, h.policy, h.input, h.responses⟩

theorem SameToHost.latchCfg (h : SameToHost s t) (a : Word) : SameToHost (latchCfg a s) (latchCfg a t) :=
  ⟨rfl, fun _ => rfl, h.policy, h.input, h.responses⟩

/-- Two outcomes agree where both answer states alike to the host or both stop for the same reason. -/
theorem outcomesAgree_cases {o p : Host.Outcome State Fault Refusal} (h : OutcomesAgree o p) :
    (∃ s t, o = .next s ∧ p = .next t ∧ SameToHost s t) ∨ (∃ e, o = .fault e ∧ p = .fault e) ∨
    (∃ e, o = .refused e ∧ p = .refused e) := by
  match o, p, h with
  | .next s, .next t, h => exact .inl ⟨s, t, rfl, rfl, h⟩
  | .fault _, .fault _, h => exact .inr (.inl ⟨_, rfl, congrArg _ (Eq.symm h)⟩)
  | .refused _, .refused _, h => exact .inr (.inr ⟨_, rfl, congrArg _ (Eq.symm h)⟩)

/-- A command's outcomes on two states alike to the host agree. -/
theorem SameToHost.exec (h : SameToHost s t) (i : Instr) : OutcomesAgree (exec i s) (exec i t) := by
  rcases exec_congr i h.policy h.cfgValid h.gain with ⟨r, hs, ht⟩ | ⟨a, r, hs, ht⟩ | ⟨e, hs, ht⟩
  · rw [hs, ht]
    exact h.respond r
  · rw [hs, ht]
    exact (h.latchCfg a).respond r
  · rw [hs, ht]
    exact rfl

/-- A step's outcomes on two states alike to the host agree: both take the same move. -/
theorem SameToHost.step (h : SameToHost s t) : OutcomesAgree (step s) (step t) := by
  cases hmove : takeMove s.input with
  | idle =>
    rw [step_of_idle hmove, step_of_idle (h.input ▸ hmove)]
    exact h
  | resetEvent rest =>
    rw [step_of_resetEvent hmove, step_of_resetEvent (h.input ▸ hmove)]
    exact (h.setInput rest).resetBlock
  | command i rest =>
    rw [step_of_command hmove, step_of_command (h.input ▸ hmove)]
    exact (h.setInput rest).exec i
  | truncated op =>
    rw [step_of_truncated hmove, step_of_truncated (h.input ▸ hmove)]
    exact rfl

end

/-- Runs from two states alike to the host agree. -/
theorem SameToHost.run (k : Nat) {s t : State} (h : SameToHost s t) :
    OutcomesAgree (Sys2Proof.core.run k s) (Sys2Proof.core.run k t) := by
  induction k generalizing s t with
  | zero => exact h
  | succ k ih =>
    rcases outcomesAgree_cases h.step with ⟨s', t', hs, ht, h'⟩ | ⟨e, hs, ht⟩ | ⟨e, hs, ht⟩
    · rw [core_run_next k hs, core_run_next k ht]
      exact ih h'
    · rw [core_run_fault k hs, core_run_fault k ht]
      exact rfl
    · rw [core_run_refused k hs, core_run_refused k ht]
      exact rfl

/-! ### A stream of commands -/

/-- No command's effect depends on the moves the host still presents (R108, R205). -/
theorem exec_setInput {i : Instr} {s t : State} (h : exec i s = .next t) (moves : List HostMove) :
    exec i (setInput moves s) = .next (setInput moves t) := by
  rcases exec_congr (s := s) (t := setInput moves s) i rfl rfl (fun _ => rfl) with
    ⟨r, hs, ht⟩ | ⟨a, r, hs, ht⟩ | ⟨e, hs, -⟩
  · obtain rfl := Host.Outcome.next.inj (hs.symm.trans h)
    exact ht
  · obtain rfl := Host.Outcome.next.inj (hs.symm.trans h)
    exact ht
  · exact nomatch hs.symm.trans h

theorem execAll_cons {i : Instr} {s t : State} (h : exec i s = .next t) (is : List Instr) :
    execAll (i :: is) s = execAll is t := by
  simp only [execAll, h]

theorem encodeAll_cons (i : Instr) (is : List Instr) : encodeAll (i :: is) = encode i ++ encodeAll is :=
  List.flatMap_cons

/-- An encoding holds at least the opcode byte (R311). -/
theorem encode_ne_nil (i : Instr) : encode i ≠ [] := by cases i <;> exact List.cons_ne_nil _ _

theorem encodeAll_cons_ne_nil (i : Instr) (is : List Instr) : encodeAll (i :: is) ≠ [] := by
  rw [encodeAll_cons]
  exact List.append_ne_nil_of_left_ne_nil (encode_ne_nil i) _

/-- The first command of a presented stream is taken, and the rest of the stream stands first again
(R311). -/
theorem takeMove_encodeAll_cons {i : Instr} (hi : i.wellFormed = true) (is : List Instr)
    (rest : List HostMove) :
    takeMove (remaining (encodeAll (i :: is)) rest) = .command i (remaining (encodeAll is) rest) := by
  rw [remaining_of_ne_nil (encodeAll_cons_ne_nil i is), encodeAll_cons]
  exact takeMove_stream_of_ok (decode_encode hi _) rest

/-- As many steps as a presented stream has commands are its commands in order. The stream may be empty,
and then the moves after it already stand first, so that the induction passes from a stream to the rest
of it. -/
theorem run_remaining_encodeAll (is : List Instr) (hwf : ∀ i ∈ is, i.wellFormed = true) (s : State)
    (rest : List HostMove) (hs : Inv s) (hinput : s.input = remaining (encodeAll is) rest) :
    ∃ t, Sys2Proof.core.run is.length s = .next t ∧ execAll is (setInput rest s) = .next t ∧
      t.input = rest ∧ t.responses.length = s.responses.length + is.length := by
  induction is generalizing s with
  | nil =>
    have hsame : setInput rest s = s := by rw [show rest = s.input from hinput.symm]; rfl
    exact ⟨s, core_run_zero s, congrArg _ hsame, hinput, rfl⟩
  | cons i is ih =>
    obtain ⟨hi, his⟩ := List.forall_mem_cons.mp hwf
    have hmove : takeMove s.input = .command i (remaining (encodeAll is) rest) := by
      rw [hinput, takeMove_encodeAll_cons hi]
    have hs' := hs.setInput (remaining (encodeAll is) rest)
    obtain ⟨u, hu⟩ := exec_completes hs'.cfgTruthful i
    obtain ⟨-, huinput, ⟨r, huresponses⟩, -⟩ := exec_frame hu
    obtain ⟨t, hrun, hall, htinput, htlength⟩ := ih his u (hs'.exec hi hu) huinput
    have hfirst : exec i (setInput rest s) = .next (setInput rest u) := exec_setInput hu rest
    refine ⟨t, ?_, ?_, htinput, ?_⟩
    · rw [List.length_cons, core_run_next _ ((step_of_command hmove).trans hu), hrun]
    · rw [execAll_cons hfirst, hall]
    · rw [htlength, huresponses, setInput_responses, List.length_append, List.length_singleton,
        List.length_cons]
      omega

end Sys2Proof.Machine

namespace Sys2Proof.Proofs

open Sys2Proof.Machine

/-- Settles O42, by induction on the number of steps: a step takes the same move in both states, and a
command's answer depends on nothing they differ in. -/
theorem hostSeesOnlyTheGainOfCfg : Obligations.HostSeesOnlyTheGainOfCfg := fun k _ _ h => h.run k

/-- Settles O43, by induction on the commands, the stream's rest standing first after each. -/
theorem streamRunsInOrder : Obligations.StreamRunsInOrder := by
  intro is s rest hne hwf hs hinput
  obtain ⟨i, is, rfl⟩ := List.exists_cons_of_ne_nil hne
  have hpresented : s.input = remaining (encodeAll (i :: is)) rest := by
    rw [hinput, remaining_of_ne_nil (encodeAll_cons_ne_nil i is)]
  exact run_remaining_encodeAll _ hwf s rest hs hpresented

end Sys2Proof.Proofs
end

section
/-! SUPPORT. The host's monitor along a run: a dutiful host's every action completes and keeps host and
block in step, and where its view comes from (R711, log 15). -/

namespace Sys2Proof.Machine

/-! ### What the view becomes after an action that keeps the duties -/

section
variable {v v' : HostView} {answer : Option Response}

theorem HostView.after_configWrite {w : Word} {ok : Bool}
    (h : v.after answer (.configWrite w ok) = some v') :
    v.phase = .initializing ∧ v.built = some w ∧
      (ok = true ∧ v' = { v with phase := .running, written := some w } ∨
        ok = false ∧ v' = { v with phase := .disabled }) := by
  cases ok <;> simp_all [HostView.after]

theorem HostView.after_conversionRead {got : Option (Byte × Byte)}
    (h : v.after answer (.conversionRead got) = some v') :
    v.phase = .running ∧ v.committed = true ∧
      v' = { v with read := got, decoded := none, scaled := false } := by
  simp only [HostView.after, Option.ite_none_right_eq_some, Option.some.injEq] at h
  obtain ⟨⟨hphase, hcommitted, -⟩, rfl⟩ := h
  exact ⟨hphase, hcommitted, rfl⟩

theorem HostView.after_cfgCommit {a : Word} (h : v.after answer (.command (.cfgCommit a)) = some v') :
    (v.phase = .running ∧ v.committed = false ∧ v.written = some a) ∧
      v' = { v with committed := true } := by
  simpa only [HostView.after, Option.ite_none_right_eq_some, Option.some.injEq, eq_comm (a := v')] using h

theorem HostView.after_dec16 {b0 b1 : Byte} (h : v.after answer (.command (.dec16 b0 b1)) = some v') :
    (v.phase = .running ∧ v.read = some (b0, b1)) ∧ v' = { v with decoded := wordAnswered answer } := by
  simpa only [HostView.after, Option.ite_none_right_eq_some, Option.some.injEq, eq_comm (a := v')] using h

theorem HostView.after_scale {a : Word} (h : v.after answer (.command (.scale a)) = some v') :
    (v.phase = .running ∧ v.committed = true ∧ v.decoded = some a) ∧
      v' = { v with scaled := true } := by
  simpa only [HostView.after, Option.ite_none_right_eq_some, Option.some.injEq, eq_comm (a := v')] using h

end

/-! ### Host and block in step -/

/-- The host after reset and the block are in step, whatever the block holds. -/
theorem InStep.start (s : State) : InStep .start s := ⟨nofun, nofun⟩

/-- Bus work and the commands no duty speaks of leave `CFG` and the view as they were. -/
theorem InStep.of_cfg_eq {v : HostView} {s t : State} (h : InStep v s) (hcfg : t.cfg = s.cfg)
    (hvalid : t.cfgValid = s.cfgValid) : InStep v t :=
  ⟨fun hc => by rw [hcfg, hvalid]; exact h.committed hc, h.decoded⟩

/-- In step, a committed view means that the block holds a word and says so. -/
theorem InStep.cfg_of_committed {v : HostView} {s : State} (h : InStep v s) (hc : v.committed = true) :
    ∃ w, v.written = some w ∧ s.cfg = some w ∧ s.cfgValid = true := by
  obtain ⟨-, hwritten, hcfg, hvalid⟩ := h.committed hc
  obtain ⟨w, hw⟩ := Option.isSome_iff_exists.mp hwritten
  exact ⟨w, hw, hcfg.trans hw, hvalid⟩

/-- Before `Running` nothing is committed (R711 (c)). -/
theorem InStep.not_committed {v : HostView} {s : State} (h : InStep v s) (hphase : v.phase = .initializing) :
    v.committed = false := by
  rw [← Bool.not_eq_true]
  intro hc
  obtain ⟨hrunning, -⟩ := h.committed hc
  exact nomatch hphase.symm.trans hrunning

section
variable {v v' : HostView} {s t : State} {answer : Option Response} {a : HostAction}

/-- A dutiful action completes: a SCALE comes only after the commit (R711 (e)). -/
theorem InStep.completes (h : InStep v s) (hafter : v.after answer a = some v') :
    ∃ t, actOn a s = .next t := by
  rcases actOn_next_or_scale a s with hnext | ⟨w, rfl⟩
  · exact hnext
  · obtain ⟨⟨-, hc, -⟩, -⟩ := HostView.after_scale hafter
    obtain ⟨x, -, hcfg, hvalid⟩ := h.cfg_of_committed hc
    exact ⟨_, exec_scale_of_committed hvalid hcfg w⟩

/-- A dutiful action keeps host and block in step. -/
theorem InStep.act (h : InStep v s) (ht : actOn a s = .next t)
    (hafter : v.after (answerFrom s t) a = some v') : InStep v' t := by
  cases a with
  | reset =>
    cases hafter
    exact .start t
  | configWrite w ok =>
    cases ht
    obtain ⟨hphase, -, ⟨-, rfl⟩ | ⟨-, rfl⟩⟩ := HostView.after_configWrite hafter
    all_goals exact ⟨fun hc => absurd hc (by rw [h.not_committed hphase]; nofun), h.decoded⟩
  | conversionRead got =>
    cases ht
    obtain ⟨-, -, rfl⟩ := HostView.after_conversionRead hafter
    exact ⟨h.committed, nofun⟩
  | command i =>
    cases i with
    | cfgCommit a =>
      cases ht
      obtain ⟨⟨hphase, -, hwritten⟩, rfl⟩ := HostView.after_cfgCommit hafter
      exact ⟨fun _ => ⟨hphase, by rw [hwritten]; rfl, hwritten.symm, rfl⟩, h.decoded⟩
    | dec16 b0 b1 =>
      cases ht
      obtain ⟨⟨-, hread⟩, rfl⟩ := HostView.after_dec16 hafter
      refine ⟨h.committed, fun w hw => ⟨b0, b1, hread, ?_⟩⟩
      rw [answerFrom_respond] at hw
      exact (Option.some.inj hw).symm
    | scale a =>
      obtain ⟨-, -, -, hkeep⟩ := exec_frame (i := .scale a) ht
      obtain ⟨hcfg, hvalid⟩ := hkeep nofun
      obtain ⟨-, rfl⟩ := HostView.after_scale hafter
      exact ⟨(h.of_cfg_eq hcfg hvalid).committed, h.decoded⟩
    | cfgBuild f =>
      obtain ⟨-, -, -, hkeep⟩ := exec_frame (i := .cfgBuild f) ht
      obtain ⟨hcfg, hvalid⟩ := hkeep nofun
      cases hafter
      exact ⟨(h.of_cfg_eq hcfg hvalid).committed, h.decoded⟩
    | nop | enc16 | reserved06 | reserved08 | reserved10 | reserved20 | reserved40 | reserved80 =>
      cases ht
      cases hafter
      exact h.of_cfg_eq rfl rfl

/-- Every view after a run has passed the run's first action, whether or not the block stops on it. -/
theorem exists_after_of_afterAll_transcript {as : List HostAction}
    (h : v.afterAll (transcript (a :: as) s) = some v') : ∃ answer u, v.after answer a = some u := by
  simp only [transcript] at h
  split at h <;>
  · obtain ⟨u, hu, -⟩ := HostView.afterAll_cons.mp h
    exact ⟨_, u, hu⟩

end

/-- The induction over a dutiful host's run, once: what every dutiful action keeps while host and block
are in step holds at the end, and so does being in step. -/
theorem dutiful_run_induction {P : HostView → State → Prop} {as : List HostAction} {v v' : HostView}
    {s : State}
    (hact : ∀ a ∈ as, ∀ v v' s t, InStep v s → P v s → actOn a s = .next t →
      v.after (answerFrom s t) a = some v' → P v' t)
    (h : InStep v s) (hP : P v s) (hrun : v.afterAll (transcript as s) = some v') :
    ∃ t, actAll as s = .next t ∧ InStep v' t ∧ P v' t := by
  induction as generalizing v s with
  | nil =>
    cases hrun
    exact ⟨s, rfl, h, hP⟩
  | cons a as ih =>
    obtain ⟨hfirst, hrest⟩ := List.forall_mem_cons.mp hact
    obtain ⟨_, _, hdutiful⟩ := exists_after_of_afterAll_transcript hrun
    obtain ⟨t, ht⟩ := h.completes hdutiful
    rw [transcript_cons ht, HostView.afterAll_cons] at hrun
    obtain ⟨u, hafter, hrun⟩ := hrun
    rw [actAll_cons ht]
    exact ih hrest (h.act ht hafter) (hfirst v u s t h hP ht hafter) hrun

/-! ### No `E_NOCFG` -/

/-- The responses since `s` hold no `E_NOCFG`. -/
def NoNoCfgSince (s t : State) : Prop :=
  ∃ new : List Response, t.responses = s.responses ++ new ∧ ∀ r ∈ new, r.status ≠ .noCfg

theorem NoNoCfgSince.refl (s : State) : NoNoCfgSince s s := ⟨[], (List.append_nil _).symm, nofun⟩

theorem NoNoCfgSince.trans {s t u : State} (hst : NoNoCfgSince s t) (htu : NoNoCfgSince t u) :
    NoNoCfgSince s u := by
  obtain ⟨new, hnew, hok⟩ := hst
  obtain ⟨new', hnew', hok'⟩ := htu
  refine ⟨new ++ new', by rw [hnew', hnew, List.append_assoc], fun r hr => ?_⟩
  exact (List.mem_append.mp hr).elim (hok r) (hok' r)

/-- A dutiful action brings no `E_NOCFG`: its one cause, a SCALE before the commit, breaks a duty. -/
theorem InStep.noNoCfg {v v' : HostView} {s t : State} {answer : Option Response} {a : HostAction}
    (h : InStep v s) (ht : actOn a s = .next t) (hafter : v.after answer a = some v') :
    NoNoCfgSince s t := by
  cases a with
  | reset | configWrite | conversionRead =>
    cases ht
    exact NoNoCfgSince.refl s
  | command i =>
    rcases exec_status_or_scale_of_not_valid i s with ⟨q, u, hq, hu, hstatus⟩ | ⟨x, rfl, hv⟩ | hfault
    · obtain rfl := Host.Outcome.next.inj (hq.symm.trans ht)
      exact ⟨[q], by rw [respond_responses, hu], by simpa using hstatus⟩
    · obtain ⟨⟨-, hc, -⟩, -⟩ := HostView.after_scale hafter
      obtain ⟨w, -, -, hvalid⟩ := h.cfg_of_committed hc
      exact nomatch hv.symm.trans hvalid
    · exact nomatch hfault.symm.trans ht

/-! ### Where the view comes from -/

/-- `w` is a word CFG_BUILD returned to one of the actions, under the parameter `p`. -/
def BuiltBy (acts : List HostAction) (p : FieldPolicy) (w : Word) : Prop :=
  ∃ (f : Fields) (x y : State), .command (.cfgBuild f) ∈ acts ∧ exec (.cfgBuild f) x = .next y ∧
    answerFrom x y = some ⟨.ok, 0, .word w⟩ ∧ x.policy = p

/-- What the view holds of words and readings comes from the actions. -/
structure Provenance (acts : List HostAction) (p : FieldPolicy) (v : HostView) : Prop where
  built : ∀ w, v.built = some w → BuiltBy acts p w
  written : ∀ w, v.written = some w → BuiltBy acts p w ∧ .configWrite w true ∈ acts
  read : ∀ bytes, v.read = some bytes → .conversionRead (some bytes) ∈ acts

theorem Provenance.start (acts : List HostAction) (p : FieldPolicy) : Provenance acts p .start :=
  ⟨nofun, nofun, nofun⟩

/-- A word CFG_BUILD answers comes with status `OK` (R425). -/
theorem answerFrom_of_exec_cfgBuild {f : Fields} {s t : State} {w : Word}
    (h : exec (.cfgBuild f) s = .next t) (hw : wordAnswered (answerFrom s t) = some w) :
    answerFrom s t = some ⟨.ok, 0, .word w⟩ := by
  rcases execCfgBuild_cases f s with ⟨-, e⟩ | ⟨-, e⟩ | ⟨-, -, e⟩ | ⟨k, -, -, e⟩
  all_goals
    obtain rfl := Host.Outcome.next.inj (e.symm.trans h)
    rw [answerFrom_respond] at hw ⊢
    cases hw <;> rfl

/-- A dutiful action of the list keeps the view's provenance: what enters the view is its own. -/
theorem Provenance.act {acts : List HostAction} {p : FieldPolicy} {v v' : HostView} {s t : State}
    {a : HostAction} (h : Provenance acts p v) (ha : a ∈ acts) (hp : s.policy = p)
    (ht : actOn a s = .next t) (hafter : v.after (answerFrom s t) a = some v') : Provenance acts p v' := by
  cases a with
  | reset =>
    cases hafter
    exact .start acts p
  | configWrite w ok =>
    obtain ⟨-, hbuilt, ⟨rfl, rfl⟩ | ⟨-, rfl⟩⟩ := HostView.after_configWrite hafter
    · refine ⟨h.built, fun w' hw' => ?_, h.read⟩
      cases hw'
      exact ⟨h.built w hbuilt, ha⟩
    · exact ⟨h.built, h.written, h.read⟩
  | conversionRead got =>
    obtain ⟨-, -, rfl⟩ := HostView.after_conversionRead hafter
    refine ⟨h.built, h.written, fun bytes hbytes => ?_⟩
    cases hbytes
    exact ha
  | command i =>
    cases i with
    | cfgBuild f =>
      cases hafter
      refine ⟨fun w hw => ?_, h.written, h.read⟩
      rcases Option.or_eq_some_iff.mp hw with hanswered | ⟨-, hbefore⟩
      · exact ⟨f, s, t, ha, ht, answerFrom_of_exec_cfgBuild ht hanswered, hp⟩
      · exact h.built w hbefore
    | cfgCommit =>
      obtain ⟨-, rfl⟩ := HostView.after_cfgCommit hafter
      exact ⟨h.built, h.written, h.read⟩
    | dec16 =>
      obtain ⟨-, rfl⟩ := HostView.after_dec16 hafter
      exact ⟨h.built, h.written, h.read⟩
    | scale =>
      obtain ⟨-, rfl⟩ := HostView.after_scale hafter
      exact ⟨h.built, h.written, h.read⟩
    | nop | enc16 | reserved06 | reserved08 | reserved10 | reserved20 | reserved40 | reserved80 =>
      cases hafter
      exact h

end Sys2Proof.Machine

namespace Sys2Proof.Proofs

open Sys2Proof.Machine

/-- Settles O45, by the induction over a dutiful run: no action of it brings `E_NOCFG`. -/
theorem dutifulHostNeverMeetsNoCfg : Obligations.DutifulHostNeverMeetsNoCfg := by
  intro as v v' s h hrun
  obtain ⟨t, ht, hinstep, new, hnew, hok⟩ := dutiful_run_induction (P := fun _ => NoNoCfgSince s)
    (fun _ _ _ _ _ _ hu hsince hact hafter => hsince.trans (hu.noNoCfg hact hafter)) h (.refl s) hrun
  exact ⟨t, new, ht, hinstep, hnew, hok⟩

/-- Settles O49, by the induction over a dutiful run, which keeps the view's provenance: the SCALE finds
the written word in `CFG`, and its operand is what DEC16 answered for the bytes read. -/
theorem dutifulScaleConvertsTheReading : Obligations.DutifulScaleConvertsTheReading := by
  intro as a v v' s t answer hrun hall hscale
  obtain ⟨u, hu, hinstep, hfrom, -⟩ := dutiful_run_induction
    (P := fun v u => Provenance as s.policy v ∧ u.policy = s.policy)
    (fun _ ha _ _ _ _ _ hP hact hafter =>
      ⟨hP.1.act ha hP.2 hact hafter, (actOn_policy hact).trans hP.2⟩)
    (.start s) ⟨.start as s.policy, rfl⟩ hrun
  obtain rfl : u = t := Host.Outcome.next.inj (hu.symm.trans hall)
  obtain ⟨⟨-, hcommitted, hdecoded⟩, -⟩ := HostView.after_scale hscale
  obtain ⟨w, hwritten, hcfg, hvalid⟩ := hinstep.cfg_of_committed hcommitted
  obtain ⟨b0, b1, hread, rfl⟩ := hinstep.decoded a hdecoded
  obtain ⟨hbuilt, hwrite⟩ := hfrom.written w hwritten
  exact ⟨b0, b1, w, hread, hwritten, hbuilt, hwrite, hfrom.read _ hread,
    exec_scale_of_committed hvalid hcfg _⟩

/-- Settles O50: each breach contradicts what a view after the action would say. -/
theorem breachesOfTheHostDuties : Obligations.BreachesOfTheHostDuties := by
  intro v answer
  have forbidden {v : HostView} {a : HostAction} (h : ∀ v', v.after answer a ≠ some v') :
      v.after answer a = none := Option.eq_none_iff_forall_ne_some.mpr h
  refine ⟨fun w ok hne => forbidden fun v' h => ?unbuilt,
    fun a hbad => forbidden fun v' h => ?commit,
    fun hdisabled => ⟨fun w ok => forbidden fun v' h => ?disabledWrite,
      fun got => forbidden fun v' h => ?disabledRead⟩,
    fun b0 b1 hne => forbidden fun v' h => ?unread,
    fun a hne => forbidden fun v' h => ?undecoded,
    fun v' a hafter => forbidden fun v'' h => ?failedRead⟩
  case unbuilt =>
    obtain ⟨-, hbuilt, -⟩ := HostView.after_configWrite h
    exact hne hbuilt
  case commit =>
    obtain ⟨⟨-, hfresh, hwritten⟩, -⟩ := HostView.after_cfgCommit h
    rcases hbad with hne | hcommitted
    · exact hne hwritten
    · exact nomatch hfresh.symm.trans hcommitted
  case disabledWrite =>
    obtain ⟨hphase, -⟩ := HostView.after_configWrite h
    exact nomatch hdisabled.symm.trans hphase
  case disabledRead =>
    obtain ⟨hphase, -⟩ := HostView.after_conversionRead h
    exact nomatch hdisabled.symm.trans hphase
  case unread =>
    obtain ⟨⟨-, hread⟩, -⟩ := HostView.after_dec16 h
    exact hne hread
  case undecoded =>
    obtain ⟨⟨-, -, hdecoded⟩, -⟩ := HostView.after_scale h
    exact hne hdecoded
  case failedRead =>
    obtain ⟨-, -, rfl⟩ := HostView.after_conversionRead hafter
    obtain ⟨⟨-, -, hdecoded⟩, -⟩ := HostView.after_scale h
    exact nomatch hdecoded

end Sys2Proof.Proofs
end

section
/-! SUPPORT. The layout of the configuration word bit by bit: each bit belongs to one sub-field, what a
masked and an unmasked word hold there, and the source's own packing (R110, R422, R424 to R429). -/

namespace Sys2Proof

/-! ### Which sub-field a bit belongs to -/

theorem Field.mem_all (k : Field) : k ∈ Field.all := by cases k <;> decide

/-- Bit `n` of the word belongs to the sub-field (R110). -/
def Field.covers (k : Field) (n : Nat) : Bool := decide (k.shift ≤ n ∧ n < k.shift + k.width)

theorem Field.covers_iff {k : Field} {n : Nat} :
    k.covers n = true ↔ k.shift ≤ n ∧ n < k.shift + k.width := decide_eq_true_iff

theorem Field.covers_shift_add {k : Field} {j : Nat} (h : j < k.width) : k.covers (k.shift + j) = true :=
  Field.covers_iff.mpr ⟨Nat.le_add_right _ _, Nat.add_lt_add_left h _⟩

theorem Field.lt_of_covers {k : Field} {n : Nat} (h : k.covers n = true) : n < 16 :=
  (Field.covers_iff.mp h).2.trans_le (shift_add_width_le k)

/-- Every bit of the word belongs to some sub-field (R422). -/
theorem Field.exists_covers {n : Nat} (hn : n < 16) : ∃ k : Field, k.covers n = true := by
  have table : ∀ n < 16, ∃ k ∈ Field.all, k.covers n = true := by decide
  obtain ⟨k, -, hk⟩ := table n hn
  exact ⟨k, hk⟩

/-- No bit of the word belongs to two sub-fields (R422). -/
theorem Field.covers_unique {j k : Field} {n : Nat} (hj : j.covers n = true) (hk : k.covers n = true) :
    j = k := by
  have table : ∀ n < 16, ∀ j ∈ Field.all, ∀ k ∈ Field.all,
      j.covers n = true → k.covers n = true → j = k := by decide
  exact table n (Field.lt_of_covers hj) j j.mem_all k k.mem_all hj hk

/-! ### Values cut to their sub-fields -/

/-- A value cut to its sub-field and shifted there lies in the sub-field's bits. -/
theorem placed_testBit (k : Field) (v n : Nat) :
    ((v % 2 ^ k.width) <<< k.shift).testBit n = (k.covers n && v.testBit (n - k.shift)) := by
  rw [Nat.testBit_shiftLeft, Nat.testBit_mod_two_pow, ← Bool.and_assoc]
  congr 1
  rw [Bool.eq_iff_iff]
  simp only [Bool.and_eq_true, decide_eq_true_eq, Field.covers]
  omega

/-- A bit of the OR of such values is set where it is set in the value of its own sub-field. -/
theorem orFields_placed_testBit (g : Field → Nat) (n : Nat) :
    (orFields fun k => (g k % 2 ^ k.width) <<< k.shift).testBit n = true ↔
      ∃ k : Field, k.covers n = true ∧ (g k).testBit (n - k.shift) = true := by
  simp only [orFields_testBit, placed_testBit, List.any_eq_true, Bool.and_eq_true, Field.mem_all, true_and]

/-- A sub-field of the word of MASK is its value cut to the sub-field's width (R429 (b)). -/
theorem fieldOf_maskWord (f : Fields) (k : Field) :
    fieldOf k (maskWord f) = (f.get k).toNat % 2 ^ k.width := by
  refine Nat.eq_of_testBit_eq fun j => ?_
  rw [fieldOf_testBit, maskWord_toNat, Nat.testBit_mod_two_pow]
  by_cases hj : j < k.width
  · have hcovers := Field.covers_shift_add hj
    have hown : f.masked.testBit (k.shift + j) = (f.get k).toNat.testBit j := by
      rw [Bool.eq_iff_iff, Fields.masked, orFields_placed_testBit]
      constructor
      · rintro ⟨k', hk', hbit⟩
        rwa [Field.covers_unique hk' hcovers, Nat.add_sub_cancel_left] at hbit
      · exact fun hbit => ⟨k, hcovers, by rwa [Nat.add_sub_cancel_left]⟩
    rw [hown]
  · simp [hj]

/-- Where every value fits its sub-field, MASK cuts nothing (R429 (a)). -/
theorem maskWord_eq_orWord {f : Fields} (h : ∀ k : Field, (f.get k).toNat < 2 ^ k.width) :
    maskWord f = orWord f := by
  have hcut : f.masked = f.shifted :=
    congrArg orFields (funext fun k => by rw [Nat.mod_eq_of_lt (h k)])
  rw [maskWord, orWord, hcut]

/-- Every word is the OR of its sub-fields at their shifts (R422). -/
theorem orFields_fieldOf (w : Word) : orFields (fun k => fieldOf k w <<< k.shift) = w.toNat := by
  refine Nat.eq_of_testBit_eq fun n => ?_
  simp only [fieldOf]
  rw [Bool.eq_iff_iff, orFields_placed_testBit]
  have hbit {k : Field} (hk : k.covers n = true) :
      (w.toNat >>> k.shift).testBit (n - k.shift) = w.toNat.testBit n := by
    rw [Nat.testBit_shiftRight, Nat.add_sub_cancel' (Field.covers_iff.mp hk).1]
  constructor
  · rintro ⟨k, hk, h⟩
    rwa [hbit hk] at h
  · intro h
    have hn : n < 16 :=
      (Nat.pow_lt_pow_iff_right (by decide)).mp ((Nat.ge_two_pow_of_testBit h).trans_lt w.isLt)
    obtain ⟨k, hk⟩ := Field.exists_covers hn
    exact ⟨k, hk, by rwa [hbit hk]⟩

/-- The view `GAIN` is the gain sub-field (R103). -/
theorem gainOf_toNat (w : Word) : (gainOf w).toNat = fieldOf .gain w := BitVec.extractLsb'_toNat 9 3 w

/-! ### Values not cut -/

theorem Fields.get_set (f : Fields) (j k : Field) (v : Word) :
    (f.set k v).get j = if j = k then v else f.get j := by
  cases k <;> cases j <;> rfl

/-- A value shifted to its sub-field has no bit below the sub-field's shift, so it changes none there
(R426). -/
theorem shifted_set_testBit (f : Fields) {k : Field} {j : Nat} (hj : j < k.shift) (v : Word) :
    (f.set k v).shifted.testBit j = f.shifted.testBit j := by
  simp only [Fields.shifted, orFields_testBit]
  congr 1
  funext k'
  by_cases hk : k' = k
  · have hbelow : ¬ k.shift ≤ j := Nat.not_le.mpr hj
    simp [hk, Nat.testBit_shiftLeft, hbelow]
  · rw [f.get_set, if_neg hk]

theorem orWord_getLsbD (f : Fields) (j : Nat) :
    (orWord f).getLsbD j = (decide (j < 16) && f.shifted.testBit j) := BitVec.getLsbD_ofNat 16 _ j

theorem orFields_or (g h : Field → Nat) :
    orFields (fun k => g k ||| h k) = orFields g ||| orFields h := by
  simp only [orFields_eq]
  ac_rfl

theorem orFields_mod_two_pow (g : Field → Nat) (n : Nat) :
    orFields g % 2 ^ n = orFields fun k => g k % 2 ^ n := by
  simp only [orFields_eq, Nat.or_mod_two_pow]

/-- A shifted value is the part of it that fits its sub-field and the part spilled above (R429 (c)). -/
theorem shiftLeft_mod_eq_placed_or_spill (k : Field) (v : Nat) :
    (v <<< k.shift) % 2 ^ 16 =
      (v % 2 ^ k.width) <<< k.shift ||| (((v >>> k.width) <<< (k.shift + k.width)) % 2 ^ 16) := by
  have hfits := shift_add_width_le k
  refine Nat.eq_of_testBit_eq fun n => ?_
  simp only [Nat.testBit_or, Nat.testBit_mod_two_pow, Nat.testBit_shiftLeft, Nat.testBit_shiftRight]
  by_cases hspill : k.shift + k.width ≤ n
  · have hsame : k.width + (n - (k.shift + k.width)) = n - k.shift := by omega
    have hlow : ¬ n - k.shift < k.width := by omega
    have hshift : k.shift ≤ n := by omega
    simp [hspill, hsame, hlow, hshift]
  · have hword : n < 16 := by omega
    by_cases hshift : k.shift ≤ n
    · have hlow : n - k.shift < k.width := by omega
      simp [hspill, hword, hlow]
    · simp [hspill, hshift]

/-- The word of OR_UNMASKED is the word of MASK and the spilled bits (R429 (c)). -/
theorem orWord_toNat_eq_maskWord_or_spill (f : Fields) :
    (orWord f).toNat = (maskWord f).toNat |||
      orFields fun k => ((((f.get k).toNat >>> k.width) <<< (k.shift + k.width)) % 2 ^ 16) := by
  rw [maskWord_toNat, Fields.masked, ← orFields_or, orWord, BitVec.toNat_ofNat, Fields.shifted,
    orFields_mod_two_pow]
  simp only [shiftLeft_mod_eq_placed_or_spill]

/-! ### The source's own packing -/

/-- Each field is shifted by the widths of all fields after it, and these sum up to its shift (R424). -/
theorem packed_eq_shifted (f : Fields) : f.packed = f.shifted := by
  simp [Fields.packed, Fields.shifted, orFields, Field.all, Field.width, Field.shift,
    Nat.shiftLeft_or_distrib, ← Nat.shiftLeft_add]

/-- Cutting to 16 bits commutes with one step of the packing. -/
theorem ofNat_shiftLeft_or (acc n : Nat) (v : Word) :
    BitVec.ofNat 16 acc <<< n ||| v = BitVec.ofNat 16 (acc <<< n ||| v.toNat) := by
  have hshift : BitVec.ofNat 16 acc <<< n = BitVec.ofNat 16 (acc <<< n) := by
    apply BitVec.eq_of_toNat_eq
    simp [BitVec.toNat_shiftLeft, Nat.shiftLeft_eq, Nat.mod_mul_mod]
  rw [BitVec.ofNat_or, hshift, BitVec.ofNat_toNat, BitVec.setWidth_eq]

/-- So cutting at each step gives the same word as cutting at the end (R424). -/
theorem packedCut_eq_ofNat_packed (f : Fields) : f.packedCut = BitVec.ofNat 16 f.packed :=
  List.foldl_hom (BitVec.ofNat 16) fun acc k => ofNat_shiftLeft_or acc k.width (f.get k)

end Sys2Proof

namespace Sys2Proof.Machine

/-- Where every value fits its sub-field, CFG_BUILD answers one word under every policy (R429 (a)). -/
theorem exec_cfgBuild_of_fits {f : Fields} (h : ∀ k : Field, (f.get k).toNat < 2 ^ k.width) (s : State) :
    exec (.cfgBuild f) s = .next (respond ⟨.ok, 0, .word (orWord f)⟩ s) := by
  cases hp : s.policy with
  | orUnmasked => exact exec_cfgBuild_orUnmasked hp
  | mask => rw [exec_cfgBuild_mask hp, maskWord_eq_orWord h]
  | reject => exact exec_cfgBuild_reject_fits hp ((firstOversized_none f).mpr h)

/-- The word CFG_BUILD is seen to answer under OR_UNMASKED (R426). -/
theorem eq_orWord_of_exec_cfgBuild {f : Fields} {s t : State} {w : Word} (hp : s.policy = .orUnmasked)
    (hexec : exec (.cfgBuild f) s = .next t)
    (hanswer : t.responses = s.responses ++ [⟨.ok, 0, .word w⟩]) : w = orWord f := by
  cases response_eq_of_next (exec_cfgBuild_orUnmasked hp) rfl hexec hanswer
  rfl

end Sys2Proof.Machine

namespace Sys2Proof.Proofs

open Sys2Proof.Machine

/-- Settles O11: both answers are the OR of the shifted values, which differ in field `k` only. -/
theorem unmaskedFieldSpillsOnlyUpward : Obligations.UnmaskedFieldSpillsOnlyUpward := by
  intro f k v s t u w w' hp ht hw hu hw' j hj
  rw [eq_orWord_of_exec_cfgBuild hp ht hw, eq_orWord_of_exec_cfgBuild hp hu hw', orWord_getLsbD,
    orWord_getLsbD, shifted_set_testBit f hj]

/-- Settles O12: nothing is cut and nothing rejected, so the word is also the one of MASK, whose fields
read back. -/
theorem inRangeFieldsReadBackUnderEveryPolicy : Obligations.InRangeFieldsReadBackUnderEveryPolicy := by
  intro f h
  refine ⟨orWord f, exec_cfgBuild_of_fits h, fun k => ?_⟩
  rw [← maskWord_eq_orWord h, fieldOf_maskWord, Nat.mod_eq_of_lt (h k)]

/-- Settles O13, by the bits of the word of MASK. -/
theorem maskedFieldsReadBackReduced : Obligations.MaskedFieldsReadBackReduced :=
  fun f _ hp => ⟨maskWord f, exec_cfgBuild_mask hp, fieldOf_maskWord f⟩

/-- Settles O14: field by field, the shifted value is what MASK keeps and what spills. -/
theorem unmaskedWordIsMaskedWordPlusSpill : Obligations.UnmaskedWordIsMaskedWordPlusSpill := by
  intro f s t hp ht
  have hmask : t.policy = .mask := by rw [ht]
  exact ⟨orWord f, maskWord f, exec_cfgBuild_orUnmasked hp, exec_cfgBuild_mask hmask,
    orWord_toNat_eq_maskWord_or_spill f⟩

/-- Settles O15: the packing is the OR of the shifted values, before and after cutting. -/
theorem successivePackingEqualsPositional : Obligations.SuccessivePackingEqualsPositional := by
  refine fun f => ⟨packed_eq_shifted f, packedCut_eq_ofNat_packed f, fun s hp => ?_⟩
  rw [packedCut_eq_ofNat_packed, packed_eq_shifted]
  exact exec_cfgBuild_orUnmasked hp

/-- Settles O16: the reference values fit; with `mux = 9` each policy answers its own word or error. -/
theorem referenceFieldsBuild4282 : Obligations.ReferenceFieldsBuild4282 := by
  refine ⟨fun s => ?reference, fun s hp => ?orUnmasked, fun s hp => ?mask, fun s hp => ?reject⟩
  case reference =>
    have hword : orWord ⟨0, 4, 1, 0, 4, 0, 0, 0, 2⟩ = 0x4282 := by decide
    rw [exec_cfgBuild_of_fits (by rw [forall_field]; decide), hword]
    rfl
  case orUnmasked =>
    have hword : orWord ⟨0, 9, 1, 0, 4, 0, 0, 0, 2⟩ = 0x9282 := by decide
    rw [exec_cfgBuild_orUnmasked hp, hword]
    rfl
  case mask =>
    have hword : maskWord ⟨0, 9, 1, 0, 4, 0, 0, 0, 2⟩ = 0x1282 := by decide
    rw [exec_cfgBuild_mask hp, hword]
    rfl
  case reject =>
    have hmux : (⟨0, 9, 1, 0, 4, 0, 0, 0, 2⟩ : Fields).firstOversized = some .mux := by decide
    exact exec_cfgBuild_reject_oversized hp hmux

/-- Settles O17: the masks of every two fields by the table, the OR and the view by their lemmas. -/
theorem fieldsPartitionTheWord : Obligations.FieldsPartitionTheWord := by
  have table : ∀ j ∈ Field.all, ∀ k ∈ Field.all, j ≠ k → j.maskBits &&& k.maskBits = 0 := by decide
  exact ⟨fun j k => table j j.mem_all k k.mem_all, orFields_fieldOf, gainOf_toNat⟩

end Sys2Proof.Proofs
end

section
/-! SUPPORT. The signed reading of a sample under negation and one count, and the scaler at gain code 1
(R10, R450 to R457). -/

namespace Sys2Proof

/-- `signed` is the two's-complement reading (R451, D12). -/
theorem signed_eq_toInt (v : Word) : signed v = v.toInt := by
  rw [signed, BitVec.toInt_eq_toNat_cond]
  split <;> split <;> omega

/-- Negating any sample but the lowest code negates its value (R456 (c)). -/
theorem signed_neg {a : Word} (h : a ≠ 0x8000) : signed (-a) = -signed a := by
  rw [signed_eq_toInt, signed_eq_toInt]
  exact BitVec.toInt_neg_of_ne_intMin h

/-- One count up is one more, from any sample but the highest code (R456 (e)). -/
theorem signed_add_one {a : Word} (h : a ≠ 0x7FFF) : signed (a + 1) = signed a + 1 := by
  simp only [signed]
  bv_omega

/-- A full-scale range of 4096 is a shift by 12 (R457). -/
theorem scaleResult_4096 (a : Word) : scaleResult 4096 a = a.signExtend 32 <<< 12 := by
  rw [scaleResult, scaleNumerator, BitVec.ofInt_mul, signed_eq_toInt, BitVec.shiftLeft_eq_mul_twoPow]
  rfl

/-- The full-scale range of gain code 1 is fixed (R10). -/
theorem fsrMilliVolts_one : fsrMilliVolts 1 = 4096 := if_pos rfl

end Sys2Proof

namespace Sys2Proof.Machine

/-- At gain code 1 the result is the sample shifted by 12 (R457). -/
theorem scaledBy_of_gain_one {w : Word} (h : gainOf w = 1) (a : Word) :
    scaledBy w a = a.signExtend 32 <<< 12 := by
  rw [scaledBy, h, fsrMilliVolts_one, scaleResult_4096]

end Sys2Proof.Machine

namespace Sys2Proof.Proofs

open Sys2Proof.Machine

/-- Settles O22, by the bounds of the product. -/
theorem scaleNeverOverflows : Obligations.ScaleNeverOverflows := by
  intro fsr a
  obtain ⟨hlow, hhigh⟩ := scaleNumerator_bounds fsr a
  exact ⟨hlow, hhigh, scaleResult_toInt fsr a⟩

/-- Settles O23: each law is one of the signed sample, multiplied by the full-scale range. -/
theorem scalerLaws : Obligations.ScalerLaws := by
  intro w fsr s
  have hs (a : Word) : s a = signed a * fsr := scaledBy_toInt w a
  have hzero : signed 0 = 0 := by decide
  have hhighest : signed 0x7FFF = 32767 := by decide
  have hlowest : signed 0x8000 = -32768 := by decide
  simp only [hs]
  refine ⟨?zero, fun hpos a b hab => ?monotone, fun a ha => ?symmetry, ?highest, ?lowest,
    fun a ha => ?step⟩
  case zero => rw [hzero, zero_mul]
  case monotone => exact mul_lt_mul_of_pos_right hab hpos
  case symmetry => rw [signed_neg ha, neg_mul]
  case highest => rw [hhighest]
  case lowest => rw [hlowest, neg_mul]
  case step => rw [signed_add_one ha]; ring

/-- Settles O24: the entry is fixed, and a shift by 12 is the product with it. -/
theorem gainOneResultIsShiftedSample : Obligations.GainOneResultIsShiftedSample := by
  refine ⟨by rw [fsrMilliVolts_one]; rfl, fun a w s hv hc hgain => ?_⟩
  have hcode : gainOf w = 1 := BitVec.eq_of_toNat_eq (by rw [gainOf_toNat, hgain]; rfl)
  rw [exec_scale_of_committed hv hc, scaledBy_of_gain_one hcode]
  rfl

end Sys2Proof.Proofs
end

section
/-! SUPPORT. What the codec's commands are seen to answer, the bytes of a register write, and the register
a data read returns (R212, R214, R400 to R411). -/

namespace Sys2Proof

/-- Encoding the word of two bytes gives the bytes back (R411). -/
@[simp] theorem encode16_decode16 (b0 b1 : Byte) : encode16 (decode16 b0 b1) = (b0, b1) :=
  Prod.ext (highByte_joinBytes b0 b1) (lowByte_joinBytes b0 b1)

end Sys2Proof

namespace Sys2Proof.Machine

/-- The bytes ENC16 is seen to answer are those of its operand (R400). -/
theorem encode16_eq_of_exec_enc16 {w : Word} {s t : State} {y0 y1 : Byte}
    (hexec : exec (.enc16 w) s = .next t)
    (hanswer : t.responses = s.responses ++ [⟨.ok, 0, .bytes y0 y1⟩]) : encode16 w = (y0, y1) := by
  cases response_eq_of_next (exec_enc16 w s) rfl hexec hanswer
  rfl

end Sys2Proof.Machine

namespace Sys2Proof.External

theorem frame_registerWrite (reg : DeviceRegister) (w : Word) :
    Transaction.frame (.registerWrite reg w) = [.start, .send (addressByte .write), .send reg.id,
      .send (encode16 w).1, .send (encode16 w).2, .stop] := rfl

/-- A pointer-set selects its register (R214, log 16). -/
theorem selectedRegister_concat_pointerSet (ts : List Transaction) (reg : DeviceRegister) :
    selectedRegister (ts ++ [.pointerSet reg]) = some reg := by
  simp [selectedRegister]

/-- No other transaction selects a register (R214). -/
theorem selectedRegister_concat_of_ne {x : Transaction} (hx : ∀ reg, x ≠ .pointerSet reg)
    (ts : List Transaction) : selectedRegister (ts ++ [x]) = selectedRegister ts := by
  cases x with
  | pointerSet reg => exact absurd rfl (hx reg)
  | registerWrite | dataRead => simp [selectedRegister]

/-- So no transactions without a pointer-set change what is selected (R214). -/
theorem selectedRegister_append_of_ne (ts : List Transaction) {after : List Transaction}
    (h : ∀ x ∈ after, ∀ reg, x ≠ .pointerSet reg) :
    selectedRegister (ts ++ after) = selectedRegister ts := by
  induction after generalizing ts with
  | nil => rw [List.append_nil]
  | cons x after ih =>
    obtain ⟨hx, hafter⟩ := List.forall_mem_cons.mp h
    rw [List.append_cons, ih _ hafter, selectedRegister_concat_of_ne hx]

end Sys2Proof.External

namespace Sys2Proof.Proofs

open Sys2Proof.Machine Sys2Proof.External

/-- Settles O6: the word is that of the two bytes, whose OR is a sum. -/
theorem dec16WordIsSum : Obligations.Dec16WordIsSum := by
  intro b0 b1 s t w hexec hanswer
  have hword : w = joinBytes b0 b1 := word_eq_decode16_of_exec_dec16 hexec hanswer
  exact ⟨hword ▸ joinBytes_toNat b0 b1, hword⟩

/-- Settles O8: both commands always answer, and the word DEC16 answers encodes to the two bytes. -/
theorem enc16OfDec16IsIdentity : Obligations.Enc16OfDec16IsIdentity := by
  intro b0 b1 s
  have henc (t : State) : exec (.enc16 (decode16 b0 b1)) t =
      .next (respond ⟨.ok, 0, .bytes b0 b1⟩ t) := by
    rw [exec_enc16, encode16_decode16]
  exact ⟨_, _, _, exec_dec16 b0 b1 s, rfl, henc _, rfl⟩

/-- Settles O46: the frame's two data bytes are those ENC16 answers. -/
theorem registerWriteSendsEnc16Bytes : Obligations.RegisterWriteSendsEnc16Bytes := by
  refine ⟨fun reg w s t y0 y1 hexec hanswer => ?frame, rfl⟩
  case frame =>
    rw [frame_registerWrite, encode16_eq_of_exec_enc16 hexec hanswer]
    rfl

/-- Settles O48: the pointer-set selects its register, and nothing after it selects another. -/
theorem dataReadReturnsLastPointerSet : Obligations.DataReadReturnsLastPointerSet := by
  intro before after reg h
  rw [List.append_cons, selectedRegister_append_of_ne _ h, selectedRegister_concat_pointerSet]

end Sys2Proof.Proofs
end
